-- ==== Sys2Proof/Word.lean ====
section
/-! DEFINITION. The widths of the machine: bytes, words, addresses, nibbles, register and key numbers. -/

namespace Sys2Proof

/-- A memory byte or the contents of a general register (spec 00_scope.md R6). -/
abbrev Byte := BitVec 8

/-- An opcode, PC, I or a return address (spec 00_scope.md R6, 10_state.md R24 to R26). -/
abbrev Word := BitVec 16

/-- The 12-bit address field `nnn` (spec 30_encoding.md R71). -/
abbrev Addr := BitVec 12

/-- A 4-bit slice of an opcode (spec 00_scope.md R13). -/
abbrev Nibble := BitVec 4

/-- The number of a general register V0..VF (spec 10_state.md R21). -/
abbrev Reg := Fin 16

/-- The number of a logical key 0x0..0xF (spec 10_state.md R34). -/
abbrev Key := Fin 16

/-- Number of bytes of memory: addresses [0x000, 0x1000) (spec 20_memory.md R50). -/
abbrev memSize : Nat := 0x1000

/-- First address of the program region (spec 20_memory.md R59). -/
abbrev programBase : Nat := 0x200

/-- Number of glyph bytes: 16 glyphs of 5 bytes (spec 10_state.md R31). -/
abbrev fontSize : Nat := 80

end Sys2Proof
end

