-- ==== Sys2Proof/Config.lean ====
section
/-! DEFINITION. What is fixed for one machine (the launch parameters that instructions consult), the agents' turns, and the free values. -/

namespace Sys2Proof

/-- The named parameters of spec 00_scope.md R7 that an instruction consults, with the spec's defaults.
They stand in `State.cfg`, so a statement over all states is a statement over all their values (log 1). -/
structure Config where
  /-- STACK_DEPTH: the most return addresses the stack holds, or none for unbounded (10_state.md R26). -/
  stackDepth : Option Nat := none
  /-- FONT_BASE: the address of glyph 0 (10_state.md R31). -/
  fontBase : Nat := 0
  /-- SHIFT_Y_DONTCARE: whether SHR and SHL take any `y` nibble (30_encoding.md R76). -/
  shiftYDontCare : Bool := false
deriving DecidableEq, Repr

/-- The defaults of spec 00_scope.md R7. -/
def Config.default : Config := {}

/-- `draw_byte()`, the free input byte of the n-th RND (spec 10_state.md R36, 42_alu.md R161).
It has no body that a proof can see: any of the 256 values at each draw (log 4). -/
opaque Config.drawByte : Nat → Byte

/-- Whose step is next (spec 60_exceptions.md R253): the CPU, one of the two timer agents, or one of the host's steps. -/
inductive Turn where
  /-- A CPU tick (40_execution_cycle.md R106). -/
  | cpu
  /-- A delay-timer step (60_exceptions.md R246). -/
  | delayTimer
  /-- A sound-timer step (60_exceptions.md R247). -/
  | soundTimer
  /-- `key_press(k)` (60_exceptions.md R250). -/
  | keyPress (k : Key)
  /-- `key_release(k)` (60_exceptions.md R250). -/
  | keyRelease (k : Key)
  /-- `close()` (60_exceptions.md R241). -/
  | close
deriving DecidableEq, Repr, Inhabited

/-- The turns of the n-th round where the pace is free (spec 60_exceptions.md R248: "a timer step may occur between any two CPU
ticks, any number of times"). It has no body that a proof can see: any list of turns for each round (log 5). -/
opaque Config.freeRound : Nat → List Turn

end Sys2Proof
end

