-- ==== Sys2Proof/Syntax.lean ====
section
/-! DEFINITION. The 34 instructions of spec 30_encoding.md R76, one constructor a row of spec/opcode_table.json, in the table's order. -/

namespace Sys2Proof

/-- An instruction with its operands (spec 30_encoding.md R72, R73, R76). -/
inductive Instr where
  /-- CLS -/
  | cls
  /-- RET -/
  | ret
  /-- JP addr -/
  | jp (nnn : Addr)
  /-- CALL addr -/
  | call (nnn : Addr)
  /-- SE Vx, byte -/
  | seByte (x : Reg) (kk : Byte)
  /-- SNE Vx, byte -/
  | sneByte (x : Reg) (kk : Byte)
  /-- SE Vx, Vy -/
  | seReg (x y : Reg)
  /-- LD Vx, byte -/
  | ldByte (x : Reg) (kk : Byte)
  /-- ADD Vx, byte -/
  | addByte (x : Reg) (kk : Byte)
  /-- LD Vx, Vy -/
  | ldReg (x y : Reg)
  /-- OR Vx, Vy -/
  | orReg (x y : Reg)
  /-- AND Vx, Vy -/
  | andReg (x y : Reg)
  /-- XOR Vx, Vy -/
  | xorReg (x y : Reg)
  /-- ADD Vx, Vy -/
  | addReg (x y : Reg)
  /-- SUB Vx, Vy -/
  | subReg (x y : Reg)
  /-- SHR Vx. The nibble `y` is the word's bits 7:4, which no meaning reads: 0 unless SHIFT_Y_DONTCARE (log 11). -/
  | shr (x : Reg) (y : Nibble)
  /-- SUBN Vx, Vy -/
  | subnReg (x y : Reg)
  /-- SHL Vx. The nibble `y` as for SHR (log 11). -/
  | shl (x : Reg) (y : Nibble)
  /-- SNE Vx, Vy -/
  | sneReg (x y : Reg)
  /-- LD I, addr -/
  | ldI (nnn : Addr)
  /-- JP V0, addr -/
  | jpV0 (nnn : Addr)
  /-- RND Vx, byte -/
  | rnd (x : Reg) (kk : Byte)
  /-- DRW Vx, Vy, nibble -/
  | drw (x y : Reg) (n : Nibble)
  /-- SKP Vx -/
  | skp (x : Reg)
  /-- SKNP Vx -/
  | sknp (x : Reg)
  /-- LD Vx, DT -/
  | ldVxDT (x : Reg)
  /-- LD Vx, K -/
  | ldVxK (x : Reg)
  /-- LD DT, Vx -/
  | ldDTVx (x : Reg)
  /-- LD ST, Vx -/
  | ldSTVx (x : Reg)
  /-- ADD I, Vx -/
  | addIVx (x : Reg)
  /-- LD F, Vx -/
  | ldFVx (x : Reg)
  /-- LD B, Vx -/
  | ldBVx (x : Reg)
  /-- LD [I], Vx -/
  | ldMemVx (x : Reg)
  /-- LD Vx, [I] -/
  | ldVxMem (x : Reg)
deriving DecidableEq, Repr

end Sys2Proof
end

