-- ==== Sys2Proof/WellFormed.lean ====
section
/-! DEFINITION. The checks on instructions and on launch parameters. -/

namespace Sys2Proof

/-- An instruction that some opcode stands for. Every operand type but the shifts' unused nibble has
exactly the values its field has; that nibble is 0 unless SHIFT_Y_DONTCARE (spec 30_encoding.md R76, 90_conflicts.md C4). -/
def Instr.wf (yDontCare : Bool) : Instr → Bool
  | .shr _ y => yDontCare || y == 0
  | .shl _ y => yDontCare || y == 0
  | .cls | .ret | .jp _ | .call _ | .seByte _ _ | .sneByte _ _ | .seReg _ _ | .ldByte _ _ | .addByte _ _
  | .ldReg _ _ | .orReg _ _ | .andReg _ _ | .xorReg _ _ | .addReg _ _ | .subReg _ _ | .subnReg _ _
  | .sneReg _ _ | .ldI _ | .jpV0 _ | .rnd _ _ | .drw _ _ _ | .skp _ | .sknp _ | .ldVxDT _ | .ldVxK _
  | .ldDTVx _ | .ldSTVx _ | .addIVx _ | .ldFVx _ | .ldBVx _ | .ldMemVx _ | .ldVxMem _ => true

/-- The digit region lies below the program region (spec 10_state.md R31). -/
def Config.wf (c : Config) : Bool := decide (c.fontBase + fontSize ≤ programBase)

end Sys2Proof
end

