-- ==== Sys2Proof/Decode.lean ====
section
/-! DEFINITION. The opcode table of spec 30_encoding.md as descriptors, the decoder that scans it, and the encoder. -/

namespace Sys2Proof

/-! ### Fields (spec 30_encoding.md R71): bit slices of the opcode -/

/-- A nibble as a register number. -/
def regOfNibble (n : Nibble) : Reg := n.toFin

/-- A register number as a nibble. -/
def nibbleOfReg (r : Reg) : Nibble := BitVec.ofFin r

/-- `x` = op[11:8]. -/
def fieldX (op : Word) : Reg := regOfNibble (op.extractLsb' 8 4)

/-- `y` = op[7:4], as a register number. -/
def fieldY (op : Word) : Reg := regOfNibble (op.extractLsb' 4 4)

/-- op[7:4] as the bits themselves. -/
def fieldYBits (op : Word) : Nibble := op.extractLsb' 4 4

/-- `n` = op[3:0]. -/
def fieldN (op : Word) : Nibble := op.extractLsb' 0 4

/-- `kk` = op[7:0]. -/
def fieldKK (op : Word) : Byte := op.extractLsb' 0 8

/-- `nnn` = op[11:0]. -/
def fieldNNN (op : Word) : Addr := op.extractLsb' 0 12

/-! ### The pattern language (spec 30_encoding.md R74) -/

/-- The value of a hex digit character. -/
def hexDigit? (c : Char) : Option Nibble :=
  if 48 ≤ c.toNat ∧ c.toNat ≤ 57 then some (BitVec.ofNat 4 (c.toNat - 48))
  else if 65 ≤ c.toNat ∧ c.toNat ≤ 70 then some (BitVec.ofNat 4 (c.toNat - 55))
  else if 97 ≤ c.toNat ∧ c.toNat ≤ 102 then some (BitVec.ofNat 4 (c.toNat - 87))
  else none

/-- Grouping separators. The spec names none; no pattern of the table holds one (log 12). -/
def isSeparator (c : Char) : Bool := c == '_' || c == ' '

/-- The nibbles a pattern names from bit 15 down: `some d` fixed, `none` free; a character outside the alphabet is an error. -/
def patternNibbles : List Char → Option (List (Option Nibble))
  | [] => some []
  | c :: cs =>
    if isSeparator c then patternNibbles cs
    else if c == 'x' then (patternNibbles cs).map (none :: ·)
    else match hexDigit? c with
      | some d => (patternNibbles cs).map (some d :: ·)
      | none => none

/-- The fixed value of one pattern nibble. -/
def nibbleExpected (n : Option Nibble) : Nibble := n.getD 0

/-- The mask of one pattern nibble: set where fixed. -/
def nibbleMask (n : Option Nibble) : Nibble := if n.isSome then 0xF else 0

/-- A pattern string to its pair (expected, mask); none is the build-time error. -/
def compilePattern (p : List Char) : Option (Word × Word) :=
  match patternNibbles p with
  | some [a, b, c, d] =>
    some (nibbleExpected a ++ nibbleExpected b ++ nibbleExpected c ++ nibbleExpected d,
      nibbleMask a ++ nibbleMask b ++ nibbleMask c ++ nibbleMask d)
  | _ => none

/-! ### Descriptors (spec 30_encoding.md R75, R76) -/

/-- One row of the instruction table: its pattern, the pair it compiles to, and the instruction it builds from a word. -/
structure Descriptor where
  pattern : String
  expected : Word
  mask : Word
  build : Word → Instr

/-- An opcode matches "iff `(value & mask) == expected`" (R74). -/
def Descriptor.accepts (d : Descriptor) (op : Word) : Bool := op &&& d.mask == d.expected

/-- Rows 1 to 9 of R76. -/
def rowsControl : List Descriptor := [
  ⟨"00E0", 0x00E0, 0xFFFF, fun _ => .cls⟩,
  ⟨"00EE", 0x00EE, 0xFFFF, fun _ => .ret⟩,
  ⟨"1xxx", 0x1000, 0xF000, fun op => .jp (fieldNNN op)⟩,
  ⟨"2xxx", 0x2000, 0xF000, fun op => .call (fieldNNN op)⟩,
  ⟨"3xxx", 0x3000, 0xF000, fun op => .seByte (fieldX op) (fieldKK op)⟩,
  ⟨"4xxx", 0x4000, 0xF000, fun op => .sneByte (fieldX op) (fieldKK op)⟩,
  ⟨"5xx0", 0x5000, 0xF00F, fun op => .seReg (fieldX op) (fieldY op)⟩,
  ⟨"6xxx", 0x6000, 0xF000, fun op => .ldByte (fieldX op) (fieldKK op)⟩,
  ⟨"7xxx", 0x7000, 0xF000, fun op => .addByte (fieldX op) (fieldKK op)⟩]

/-- Rows 10 to 15 of R76. -/
def rowsLogic : List Descriptor := [
  ⟨"8xx0", 0x8000, 0xF00F, fun op => .ldReg (fieldX op) (fieldY op)⟩,
  ⟨"8xx1", 0x8001, 0xF00F, fun op => .orReg (fieldX op) (fieldY op)⟩,
  ⟨"8xx2", 0x8002, 0xF00F, fun op => .andReg (fieldX op) (fieldY op)⟩,
  ⟨"8xx3", 0x8003, 0xF00F, fun op => .xorReg (fieldX op) (fieldY op)⟩,
  ⟨"8xx4", 0x8004, 0xF00F, fun op => .addReg (fieldX op) (fieldY op)⟩,
  ⟨"8xx5", 0x8005, 0xF00F, fun op => .subReg (fieldX op) (fieldY op)⟩]

/-- Rows 16 to 18 of R76; the shifts' masks follow SHIFT_Y_DONTCARE. -/
def rowsShift (yDontCare : Bool) : List Descriptor := [
  ⟨if yDontCare then "8xx6" else "8x06", 0x8006, if yDontCare then 0xF00F else 0xF0FF,
    fun op => .shr (fieldX op) (fieldYBits op)⟩,
  ⟨"8xx7", 0x8007, 0xF00F, fun op => .subnReg (fieldX op) (fieldY op)⟩,
  ⟨if yDontCare then "8xxE" else "8x0E", 0x800E, if yDontCare then 0xF00F else 0xF0FF,
    fun op => .shl (fieldX op) (fieldYBits op)⟩]

/-- Rows 19 to 25 of R76. -/
def rowsMiddle : List Descriptor := [
  ⟨"9xx0", 0x9000, 0xF00F, fun op => .sneReg (fieldX op) (fieldY op)⟩,
  ⟨"Axxx", 0xA000, 0xF000, fun op => .ldI (fieldNNN op)⟩,
  ⟨"Bxxx", 0xB000, 0xF000, fun op => .jpV0 (fieldNNN op)⟩,
  ⟨"Cxxx", 0xC000, 0xF000, fun op => .rnd (fieldX op) (fieldKK op)⟩,
  ⟨"Dxxx", 0xD000, 0xF000, fun op => .drw (fieldX op) (fieldY op) (fieldN op)⟩,
  ⟨"Ex9E", 0xE09E, 0xF0FF, fun op => .skp (fieldX op)⟩,
  ⟨"ExA1", 0xE0A1, 0xF0FF, fun op => .sknp (fieldX op)⟩]

/-- Rows 26 to 34 of R76. -/
def rowsF : List Descriptor := [
  ⟨"Fx07", 0xF007, 0xF0FF, fun op => .ldVxDT (fieldX op)⟩,
  ⟨"Fx0A", 0xF00A, 0xF0FF, fun op => .ldVxK (fieldX op)⟩,
  ⟨"Fx15", 0xF015, 0xF0FF, fun op => .ldDTVx (fieldX op)⟩,
  ⟨"Fx18", 0xF018, 0xF0FF, fun op => .ldSTVx (fieldX op)⟩,
  ⟨"Fx1E", 0xF01E, 0xF0FF, fun op => .addIVx (fieldX op)⟩,
  ⟨"Fx29", 0xF029, 0xF0FF, fun op => .ldFVx (fieldX op)⟩,
  ⟨"Fx33", 0xF033, 0xF0FF, fun op => .ldBVx (fieldX op)⟩,
  ⟨"Fx55", 0xF055, 0xF0FF, fun op => .ldMemVx (fieldX op)⟩,
  ⟨"Fx65", 0xF065, 0xF0FF, fun op => .ldVxMem (fieldX op)⟩]

/-- The 34 rows of R76 in the table's order. -/
def table (yDontCare : Bool) : List Descriptor :=
  rowsControl ++ rowsLogic ++ rowsShift yDontCare ++ rowsMiddle ++ rowsF

/-- The "linear first-match scan over descriptors in declaration order" (R75). -/
def scan : List Descriptor → Word → Option Instr
  | [], _ => none
  | d :: ds, op => if d.accepts op then some (d.build op) else scan ds op

/-- The instruction an opcode stands for; none is an unhandled opcode (R77, R78). -/
def decodeWord (yDontCare : Bool) (op : Word) : Option Instr := scan (table yDontCare) op

/-! ### Bytes (spec 20_memory.md R56, 30_encoding.md R70) -/

/-- `(hi << 8) | lo`: the big-endian word of two bytes. -/
def wordOfBytes (hi lo : Byte) : Word := hi ++ lo

/-- The byte at the lower address. -/
def highByte (w : Word) : Byte := w.extractLsb' 8 8

/-- The byte at the higher address. -/
def lowByte (w : Word) : Byte := w.extractLsb' 0 8

/-- Why bytes stand for no instruction. -/
inductive DecodeError where
  /-- Fewer than two bytes. No fetch gives this (log 12). -/
  | truncated
  /-- The word matches no row of R76. -/
  | unhandled (op : Word)
deriving DecidableEq, Repr

/-- The decoder, total on any bytes: the instruction of the first two, or the reason there is none. -/
def decode (yDontCare : Bool) : List Byte → Except DecodeError Instr
  | hi :: lo :: _ =>
    match decodeWord yDontCare (wordOfBytes hi lo) with
    | some i => .ok i
    | none => .error (.unhandled (wordOfBytes hi lo))
  | _ => .error .truncated

/-! ### The encoder, from the formats of spec 30_encoding.md R72 -/

/-- Format A: the top nibble and an address. -/
def formA (top : Nibble) (nnn : Addr) : Word := top ++ nnn

/-- Formats XKK and X: the top nibble, a register and a byte (an immediate, or a fixed sub-operation). -/
def formXKK (top : Nibble) (x : Reg) (kk : Byte) : Word := top ++ nibbleOfReg x ++ kk

/-- Formats XY, X0 and XYN: the top nibble, a register, a nibble and a low nibble. -/
def formXYN (top : Nibble) (x : Reg) (y n : Nibble) : Word := top ++ nibbleOfReg x ++ y ++ n

/-- The opcode of an instruction. -/
def encode : Instr → Word
  | .cls => 0x00E0
  | .ret => 0x00EE
  | .jp nnn => formA 0x1 nnn
  | .call nnn => formA 0x2 nnn
  | .seByte x kk => formXKK 0x3 x kk
  | .sneByte x kk => formXKK 0x4 x kk
  | .seReg x y => formXYN 0x5 x (nibbleOfReg y) 0x0
  | .ldByte x kk => formXKK 0x6 x kk
  | .addByte x kk => formXKK 0x7 x kk
  | .ldReg x y => formXYN 0x8 x (nibbleOfReg y) 0x0
  | .orReg x y => formXYN 0x8 x (nibbleOfReg y) 0x1
  | .andReg x y => formXYN 0x8 x (nibbleOfReg y) 0x2
  | .xorReg x y => formXYN 0x8 x (nibbleOfReg y) 0x3
  | .addReg x y => formXYN 0x8 x (nibbleOfReg y) 0x4
  | .subReg x y => formXYN 0x8 x (nibbleOfReg y) 0x5
  | .shr x y => formXYN 0x8 x y 0x6
  | .subnReg x y => formXYN 0x8 x (nibbleOfReg y) 0x7
  | .shl x y => formXYN 0x8 x y 0xE
  | .sneReg x y => formXYN 0x9 x (nibbleOfReg y) 0x0
  | .ldI nnn => formA 0xA nnn
  | .jpV0 nnn => formA 0xB nnn
  | .rnd x kk => formXKK 0xC x kk
  | .drw x y n => formXYN 0xD x (nibbleOfReg y) n
  | .skp x => formXKK 0xE x 0x9E
  | .sknp x => formXKK 0xE x 0xA1
  | .ldVxDT x => formXKK 0xF x 0x07
  | .ldVxK x => formXKK 0xF x 0x0A
  | .ldDTVx x => formXKK 0xF x 0x15
  | .ldSTVx x => formXKK 0xF x 0x18
  | .addIVx x => formXKK 0xF x 0x1E
  | .ldFVx x => formXKK 0xF x 0x29
  | .ldBVx x => formXKK 0xF x 0x33
  | .ldMemVx x => formXKK 0xF x 0x55
  | .ldVxMem x => formXKK 0xF x 0x65

/-- The bytes of an instruction, lowest address first. -/
def encodeBytes (i : Instr) : List Byte := [highByte (encode i), lowByte (encode i)]

/-! ### The host's entry -/

/-- A number's low 16 bits as the one word of an instruction, its bits from `nbits` up being 0. -/
def tableWord (nbits w : Nat) : Word := BitVec.ofNat 16 (w % 2 ^ nbits)

/-- The instruction the decoder reads from an instruction whose bits are `w`, numbered as spec/opcode_table.json
numbers them, laid out big-endian; the parameters have their defaults. -/
def decodeTableWord (nbits w : Nat) : Option Instr :=
  match decode Config.default.shiftYDontCare [highByte (tableWord nbits w), lowByte (tableWord nbits w)] with
  | .ok i => some i
  | .error _ => none

end Sys2Proof
end

