-- ==== Sys2Proof/Machine/State.lean ====
section
/-! DEFINITION. The state of the block as plain data, the halt reasons, the faults and refusals, and the state after reset. -/

namespace Sys2Proof.Machine

/-- Memory as (address, byte) pairs in the canonical form of `Memory.wf` (Machine/Ops.lean). -/
abbrev Memory := List Host.Cell

/-- "32 rows × 64 columns of single-bit pixels, represented as 32 row-bitmasks of 64 bits each" (spec 10_state.md R29).
Column c is bit c of its row's mask, an internal choice with no architectural effect (log 9). -/
abbrev Display := Vector (BitVec 64) 32

/-- The halt reasons of spec 60_exceptions.md R240. -/
inductive HaltReason where
  /-- A fetched word matches no row of the opcode map (40_execution_cycle.md R102). -/
  | unhandled
  /-- The host's close request (60_exceptions.md R241). -/
  | hostExit
  /-- RET with an empty stack (41_control_flow.md R121). -/
  | stackUnderflow
  /-- CALL with a finite STACK_DEPTH reached (41_control_flow.md R123). -/
  | stackOverflow
  /-- A fetch or data byte at an address of 0x1000 or above (20_memory.md R53, 40_execution_cycle.md R101). -/
  | memRange
  /-- A data write into the digit-sprite region (20_memory.md R55). -/
  | fontWrite
  /-- SKP or SKNP with a value above 0xF (41_control_flow.md R129, R130). -/
  | keyRange
  /-- LD F, Vx with a value above 0xF (43_index_memory.md R182). -/
  | fontRange
deriving DecidableEq, Repr

/-- `run` of spec 10_state.md R35: the reason, the PC at which it happened, and the opcode fetched there, if any. -/
inductive Run where
  | running
  | halted (reason : HaltReason) (addr : Word) (opcode : Option Word)
deriving DecidableEq, Repr

/-- Where the turns of each further round come from when the schedule is spent (spec 60_exceptions.md R248; log 5). -/
inductive Pace where
  /-- The same round again and again. -/
  | cycle (round : List Turn)
  /-- Round n is the free value `Config.freeRound n`. -/
  | free
deriving DecidableEq, Repr

/-- Why a step is not taken as a next state. -/
inductive Fault where
  /-- Raised by `step` of a machine already halted: no step is enabled from it (spec 40_execution_cycle.md R100,
  60_exceptions.md R244); the fault carries the halt report. Safe: no state changes after a halt (log 7). -/
  | halted (reason : HaltReason) (addr : Word) (opcode : Option Word)
deriving DecidableEq, Repr

/-- Why the model gives no answer. -/
inductive Refusal where
  /-- Raised by an arm of `exec` for an instruction without a meaning, by its mnemonic. Safe. No arm raises it. -/
  | notModelled (mnemonic : String)
deriving DecidableEq, Repr

/-- The state tuple of spec 10_state.md R20, the launch parameters instructions consult, and five fields of the model's own. -/
structure State where
  /-- Memory of 4096 bytes (10_state.md R30). -/
  mem : Memory
  /-- V0..VF (10_state.md R21). -/
  V : Vector Byte 16
  /-- The address register (10_state.md R25). -/
  I : Word
  /-- The address of the next opcode to fetch (10_state.md R24). -/
  PC : Word
  /-- Return addresses, the most recently pushed first (10_state.md R26). -/
  stack : List Word
  /-- The delay timer (10_state.md R27). -/
  DT : Byte
  /-- The sound timer (10_state.md R28). -/
  ST : Byte
  /-- The framebuffer (10_state.md R29). -/
  Disp : Display
  /-- Which logical keys are held (10_state.md R34). -/
  held : Vector Bool 16
  /-- The key latch (10_state.md R34). -/
  latch : Option Key
  /-- Running or halted (10_state.md R35). -/
  run : Run
  /-- The launch parameters of 00_scope.md R7; no step changes them (log 1). -/
  cfg : Config
  /-- The model's own: how many random bytes were drawn (log 4). -/
  draws : Nat
  /-- The model's own: the turns left of the present round, next first (log 5). -/
  schedule : List Turn
  /-- The model's own: where the next rounds come from (log 5). -/
  pace : Pace
  /-- The model's own: how many rounds were begun (log 5). -/
  rounds : Nat
  /-- The model's own: how many tone pulses the sound timer has emitted, the output `tone` of 10_state.md R40 (log 6). -/
  tones : Nat
deriving DecidableEq, Repr

/-- The machine right after reset with the default parameters and no program loaded (spec 70_reset_and_hazards.md R280):
registers and timers at the simulation's 0 (log 2), memory with nothing listed (log 3), PC at 0x200; ten CPU ticks to each step of the timers (log 5). -/
def State.reset : State where
  mem := []
  V := Vector.replicate 16 0
  I := 0
  PC := 0x200
  stack := []
  DT := 0
  ST := 0
  Disp := Vector.replicate 32 0
  held := Vector.replicate 16 false
  latch := none
  run := .running
  cfg := Config.default
  draws := 0
  schedule := []
  pace := .cycle (List.replicate 10 .cpu ++ [.delayTimer, .soundTimer])
  rounds := 0
  tones := 0

end Sys2Proof.Machine
end

