-- ==== Sys2Proof/Machine/Font.lean ====
section
/-! DEFINITION. The digit-sprite glyphs and what a byte of memory that nothing has written reads as. -/

namespace Sys2Proof.Machine

/-- `FONT_GLYPHS`, glyphs 0 to 7 (spec 10_state.md R33). -/
def glyphsLow : List Byte :=
  [0xF0, 0x90, 0x90, 0x90, 0xF0] ++ [0x20, 0x60, 0x20, 0x20, 0x70] ++
  [0xF0, 0x10, 0xF0, 0x80, 0xF0] ++ [0xF0, 0x10, 0xF0, 0x10, 0xF0] ++
  [0x90, 0x90, 0xF0, 0x10, 0x10] ++ [0xF0, 0x80, 0xF0, 0x10, 0xF0] ++
  [0xF0, 0x80, 0xF0, 0x90, 0xF0] ++ [0xF0, 0x10, 0x20, 0x40, 0x40]

/-- `FONT_GLYPHS`, glyphs 8 to F (spec 10_state.md R33). -/
def glyphsHigh : List Byte :=
  [0xF0, 0x90, 0xF0, 0x90, 0xF0] ++ [0xF0, 0x90, 0xF0, 0x10, 0xF0] ++
  [0xF0, 0x90, 0xF0, 0x90, 0x90] ++ [0xE0, 0x90, 0xE0, 0x90, 0xE0] ++
  [0xF0, 0x80, 0x80, 0x80, 0xF0] ++ [0xE0, 0x90, 0x90, 0x90, 0xE0] ++
  [0xF0, 0x80, 0xF0, 0x80, 0xF0] ++ [0xF0, 0x80, 0xF0, 0x80, 0x80]

/-- The default of the parameter `FONT_GLYPHS` (spec 10_state.md R33; its bytes are the spec's general knowledge, log 8). -/
def fontGlyphs : List Byte := glyphsLow ++ glyphsHigh

/-- What an unlisted address reads as: the simulation reset's contents, glyphs at the bottom of memory and 0 above them
(spec 20_memory.md R51, 92_eei_decisions.md D3, D4; log 3). -/
def resetByte (a : Nat) : Byte := fontGlyphs.getD a 0

end Sys2Proof.Machine
end

