-- ==== Sys2Proof/Machine/Ops.lean ====
section
/-! DEFINITION. The named operations over memory, registers, PC, stack, keys and display rows, and halting, which every meaning shares. -/

namespace Sys2Proof.Machine

/-! ### Memory (spec 20_memory.md) -/

/-- The byte at an address: `MemRead(a, 1)` where the range check has passed (spec 00_scope.md R10). -/
def Memory.read : Memory → Nat → Byte
  | [], a => resetByte a
  | (k, b) :: m, a => if a = k then b else Memory.read m a

/-- `MemWrite(a, 1, v)` where the checks have passed (spec 00_scope.md R10); keeps the canonical form. -/
def Memory.write : Memory → Nat → Byte → Memory
  | [], a, v => if v = resetByte a then [] else [(a, v)]
  | (k, b) :: m, a, v =>
    if a < k then (if v = resetByte a then (k, b) :: m else (a, v) :: (k, b) :: m)
    else if a = k then (if v = resetByte a then m else (a, v) :: m)
    else (k, b) :: Memory.write m a v

/-- The canonical form from address `lo` up: addresses strictly rising and below 0x1000, no entry equal to what its
unlisted address reads as. -/
def Memory.wfFrom : Nat → Memory → Bool
  | _, [] => true
  | lo, (k, b) :: m =>
    decide (lo ≤ k) && decide (k < memSize) && decide (b ≠ resetByte k) && Memory.wfFrom (k + 1) m

/-- The canonical form: equal memories are equal lists. -/
def Memory.wf (m : Memory) : Bool := m.wfFrom 0

/-- The bytes at a, a+1, ..., a+n-1, each a separate byte access (spec 20_memory.md R52). -/
def Memory.readBytes (m : Memory) (a n : Nat) : List Byte := (List.range n).map fun k => m.read (a + k)

/-- Bytes stored at a, a+1, ... in that order (spec 20_memory.md R52). -/
def Memory.writeBytes : Memory → Nat → List Byte → Memory
  | m, _, [] => m
  | m, a, b :: bs => (m.write a b).writeBytes (a + 1) bs

/-- The memory whose byte at each address a below 0x1000 is `f a`, in canonical form. -/
@[irreducible] def Memory.ofBytes (f : Nat → Byte) : Memory :=
  (List.range memSize).filterMap fun a => if f a = resetByte a then none else some (a, f a)

/-- The range check of spec 20_memory.md R53 for the n bytes from a: every one below 0x1000, with no 16-bit wrap. -/
def inMemory (a n : Nat) : Bool := (List.range n).all fun k => decide (a + k < memSize)

/-- Whether an address lies in the digit-sprite region (spec 20_memory.md R55). -/
def inFont (c : Config) (a : Nat) : Bool := decide (c.fontBase ≤ a) && decide (a < c.fontBase + fontSize)

/-- The digit-region check of spec 20_memory.md R55 for the n bytes from a. -/
def touchesFont (c : Config) (a n : Nat) : Bool := (List.range n).any fun k => inFont c (a + k)

/-- The checks before reading n bytes from a: the halt they raise, if any (spec 20_memory.md R53). -/
def loadCheck (a n : Nat) : Option HaltReason := if inMemory a n then none else some .memRange

/-- The checks before writing n bytes from a, range first (spec 60_exceptions.md R242). -/
def storeCheck (c : Config) (a n : Nat) : Option HaltReason :=
  if inMemory a n then (if touchesFont c a n then some .fontWrite else none) else some .memRange

/-! ### One field at a time -/

/-- `mem <- m`. -/
def State.setMem (s : State) (m : Memory) : State := { s with mem := m }

/-- `I <- a`. -/
def State.setI (s : State) (a : Word) : State := { s with I := a }

/-- `PC <- a`, an instruction that sets PC directly (spec 40_execution_cycle.md R103). -/
def State.setPC (s : State) (a : Word) : State := { s with PC := a }

/-- `stack <- l`. -/
def State.setStack (s : State) (l : List Word) : State := { s with stack := l }

/-- `DT <- b`, one atomic write (spec 10_state.md R27). -/
def State.setDT (s : State) (b : Byte) : State := { s with DT := b }

/-- `ST <- b`, one atomic write (spec 10_state.md R28). -/
def State.setST (s : State) (b : Byte) : State := { s with ST := b }

/-- `Disp <- d`. -/
def State.setDisp (s : State) (d : Display) : State := { s with Disp := d }

/-- `latch <- k`. -/
def State.setLatch (s : State) (k : Option Key) : State := { s with latch := k }

/-- One more random byte drawn (log 4). -/
def State.countDraw (s : State) : State := { s with draws := s.draws + 1 }

/-- One tone pulse emitted (spec 60_exceptions.md R247; log 6). -/
def State.emitTone (s : State) : State := { s with tones := s.tones + 1 }

/-! ### Registers (spec 10_state.md R21, R23) -/

/-- VF. -/
abbrev VF : Reg := 15

/-- `V[r]`. -/
def State.getV (s : State) (r : Reg) : Byte := s.V.get r

/-- `V[r] <- b`. -/
def State.setV (s : State) (r : Reg) (b : Byte) : State := { s with V := s.V.set r.val b }

/-- The primary result, then the flag "as its last visible side effect" (spec 10_state.md R23). -/
def State.setResultFlag (s : State) (x : Reg) (result flag : Byte) : State := (s.setV x result).setV VF flag

/-- V0..Vx in order (spec 43_index_memory.md R184). -/
def State.regBlock (s : State) (x : Reg) : List Byte := s.V.toList.take (x.val + 1)

/-- `V[j] <- MemRead(a + j, 1)` for j in 0..x (spec 43_index_memory.md R185). -/
def State.loadRegBlock (s : State) (x : Reg) (a : Nat) : State :=
  { s with V := Vector.ofFn fun j : Fin 16 => if j ≤ x then s.mem.read (a + j.val) else s.getV j }

/-! ### PC and stack (spec 10_state.md R24, R26) -/

/-- `PC <- (PC + 2 * adv) mod 2^16` (spec 40_execution_cycle.md R103). -/
def State.advance (s : State) (adv : Nat) : State := { s with PC := s.PC + BitVec.ofNat 16 (2 * adv) }

/-- The advance of a compare-and-skip instruction: 2 to skip, else 1 (spec 41_control_flow.md R124 to R130). -/
def skipIf (b : Bool) : Nat := if b then 2 else 1

/-- Whether the stack has reached a finite STACK_DEPTH (spec 41_control_flow.md R123). -/
def State.stackFull (s : State) : Bool := decide (s.cfg.stackDepth = some s.stack.length)

/-! ### Keys (spec 10_state.md R34) -/

/-- `held[k]`. -/
def State.isHeld (s : State) (k : Key) : Bool := s.held.get k

/-- `held[k] <- b`. -/
def State.setHeld (s : State) (k : Key) (b : Bool) : State := { s with held := s.held.set k.val b }

/-! ### Display (spec 45_display.md R222 to R224) -/

/-- `Disp[r][c]`, which the renderer reads with no effect (spec 10_state.md R29, 60_exceptions.md R252). -/
def Display.pixel (d : Display) (r : Fin 32) (c : Fin 64) : Bool := (d.get r).getLsbD c.val

/-- `Disp[r][c]` of a state. -/
def State.pixel (s : State) (r : Fin 32) (c : Fin 64) : Bool := Display.pixel s.Disp r c

/-- The columns a sprite byte sets from bits 7-j for j below n: column `(col0 + j) mod 64` when bit `7 - j` is 1 (R222). -/
def spriteBits (col0 : Nat) (b : Byte) : Nat → BitVec 64
  | 0 => 0
  | j + 1 => spriteBits col0 b j ||| (if b.getLsbD (7 - j) then BitVec.twoPow 64 ((col0 + j) % 64) else 0)

/-- The row mask of a sprite byte (R222, R224 `pattern`). -/
def spritePattern (col0 : Nat) (b : Byte) : BitVec 64 := spriteBits col0 b 8

/-- A row number reduced modulo 32 (R223). -/
def rowIndex (r : Nat) : Fin 32 := ⟨r % 32, Nat.mod_lt r (by decide)⟩

/-- `DrawSprite(col0, row0, bytes)`: the display after it and whether it collided (R224). -/
def drawSprite (col0 : Nat) : Nat → List Byte → Display → Display × Bool
  | _, [], d => (d, false)
  | row, b :: bs, d =>
    let existing := d.get (rowIndex row)
    let pattern := spritePattern col0 b
    let after := drawSprite col0 (row + 1) bs (d.set (rowIndex row).val (existing ^^^ pattern))
    (after.1, decide (existing &&& pattern ≠ 0) || after.2)

/-! ### Halts (spec 60_exceptions.md R240 to R244) -/

/-- The codes of spec 60_exceptions.md R240. -/
def HaltReason.code : HaltReason → Nat
  | .unhandled => 1
  | .hostExit => 2
  | .stackUnderflow => 3
  | .stackOverflow => 4
  | .memRange => 5
  | .fontWrite => 6
  | .keyRange => 7
  | .fontRange => 8

/-- Halt entry: "A halt writes only `run`"; `addr` is the PC (spec 60_exceptions.md R243). There is no return from it (R244). -/
def State.halt (s : State) (reason : HaltReason) (opcode : Option Word) : State :=
  { s with run := .halted reason s.PC opcode }

/-- The outcome of a step of the machine. -/
abbrev Result := Host.Outcome State Fault Refusal

/-- An instruction's own halt: a next state, halted, with the instruction's opcode in the report (log 7). -/
def haltAt (i : Instr) (reason : HaltReason) (s : State) : Result := .next (s.halt reason (some (encode i)))

end Sys2Proof.Machine
end

