-- ==== Sys2Proof/Machine/Agents.lean ====
section
/-! DEFINITION. The steps of the agents beside the CPU: the two timers and the host (spec 60_exceptions.md). -/

namespace Sys2Proof.Machine

/-- `DtTick` (R246): "decrementing its value toward (but never below) zero each tick". -/
def delayTick (s : State) : State := if s.DT.toNat > 0 then s.setDT (s.DT - 1) else s

/-- `StTick` (R247): one tone pulse and one decrement when ST is above 0. -/
def soundTick (s : State) : State := if s.ST.toNat > 0 then s.emitTone.setST (s.ST - 1) else s

/-- `key_press(k)` (R250): `held[k] <- 1; latch <- k`, replacing any earlier latched key (10_state.md R34). -/
def keyPress (k : Key) (s : State) : State := (s.setHeld k true).setLatch (some k)

/-- `key_release(k)` (R250): `held[k] <- 0`; the latch stays (10_state.md R34). -/
def keyRelease (k : Key) (s : State) : State := s.setHeld k false

/-- `close()` (R241): "`run <- Halted(HOST_EXIT, PC, none)` with no other change". -/
def closeRequest (s : State) : State := s.halt .hostExit none

end Sys2Proof.Machine
end

