-- ==== Sys2Proof/Machine/Flags.lean ====
section
/-! DEFINITION. The values instructions write to VF (spec 10_state.md R22), each from the registers as they were before. -/

namespace Sys2Proof.Machine

/-- A flag as the byte VF receives: 1 or 0. -/
def flagByte (b : Bool) : Byte := if b then 1 else 0

/-- ADD Vx, Vy: "VF = 1 iff unsigned sum > 255" (spec 42_alu.md R156). -/
def addFlag (a b : Byte) : Byte := flagByte (decide (a.toNat + b.toNat > 255))

/-- SUB Vx, Vy: "VF = 1 iff Vx > Vy *before* subtraction", unsigned and strict (spec 42_alu.md R157). -/
def subFlag (vx vy : Byte) : Byte := flagByte (decide (vx.toNat > vy.toNat))

/-- SUBN Vx, Vy: "VF = 1 iff Vy > Vx", unsigned and strict (spec 42_alu.md R159). -/
def subnFlag (vx vy : Byte) : Byte := flagByte (decide (vy.toNat > vx.toNat))

/-- SHR Vx: "VF = low bit of Vx *before* shift" (spec 42_alu.md R158). -/
def shrFlag (vx : Byte) : Byte := flagByte (vx.getLsbD 0)

/-- SHL Vx: "VF = high bit of Vx *before* shift" (spec 42_alu.md R160). -/
def shlFlag (vx : Byte) : Byte := flagByte (vx.getLsbD 7)

end Sys2Proof.Machine
end

