-- ==== Sys2Proof/Machine/Operands.lean ====
section
/-! DEFINITION. Operand assembly (spec 30_encoding.md R73): how fields and register values become addresses, keys, digits and coordinates. -/

namespace Sys2Proof.Machine

/-- `zext_16(nnn)` (spec 30_encoding.md R73). -/
def zextAddr (nnn : Addr) : Word := nnn.setWidth 16

/-- `zext_16(V[x])` (spec 00_scope.md R9). -/
def zextByte (b : Byte) : Word := b.setWidth 16

/-- The key number a register names, or none above 0xF (spec 41_control_flow.md R129, R130). -/
def keyOfByte (b : Byte) : Option Key := if h : b.toNat < 16 then some ⟨b.toNat, h⟩ else none

/-- A latched key as the byte Vx receives (spec 44_timers_keys.md R201). -/
def byteOfKey (k : Key) : Byte := BitVec.ofNat 8 k.val

/-- The digit a register names, or none above 0xF (spec 43_index_memory.md R182). -/
def digitOfByte (b : Byte) : Option Nat := if b.toNat ≤ 0xF then some b.toNat else none

/-- The address of a digit's glyph: `FONT_BASE + 5 * d` (spec 10_state.md R31). -/
def glyphAddr (fontBase d : Nat) : Word := BitVec.ofNat 16 (fontBase + 5 * d)

/-- The three decimal digits of a byte, hundreds first (spec 43_index_memory.md R183). -/
def decimalDigits (v : Byte) : List Byte :=
  [BitVec.ofNat 8 (v.toNat / 100), BitVec.ofNat 8 (v.toNat / 10 % 10), BitVec.ofNat 8 (v.toNat % 10)]

/-- A sprite's start column `V[x] mod 64` (spec 45_display.md R225). -/
def startCol (vx : Byte) : Nat := vx.toNat % 64

/-- A sprite's start row `V[y] mod 32` (spec 45_display.md R225). -/
def startRow (vy : Byte) : Nat := vy.toNat % 32

end Sys2Proof.Machine
end

