-- ==== Sys2Proof/Machine/Alu.lean ====
section
/-! DEFINITION. Register loads, arithmetic, logic, shifts and random (spec 42_alu.md). -/

namespace Sys2Proof.Machine

/-- LD Vx, byte (R150). -/
def execLdByte (x : Reg) (kk : Byte) (s : State) : Result := .next ((s.setV x kk).advance 1)

/-- ADD Vx, byte (R151): modulo 256, VF not written. -/
def execAddByte (x : Reg) (kk : Byte) (s : State) : Result := .next ((s.setV x (s.getV x + kk)).advance 1)

/-- LD Vx, Vy (R152). -/
def execLdReg (x y : Reg) (s : State) : Result := .next ((s.setV x (s.getV y)).advance 1)

/-- OR Vx, Vy (R153). -/
def execOrReg (x y : Reg) (s : State) : Result := .next ((s.setV x (s.getV x ||| s.getV y)).advance 1)

/-- AND Vx, Vy (R154). -/
def execAndReg (x y : Reg) (s : State) : Result := .next ((s.setV x (s.getV x &&& s.getV y)).advance 1)

/-- XOR Vx, Vy (R155). -/
def execXorReg (x y : Reg) (s : State) : Result := .next ((s.setV x (s.getV x ^^^ s.getV y)).advance 1)

/-- ADD Vx, Vy (R156). -/
def execAddReg (x y : Reg) (s : State) : Result :=
  .next ((s.setResultFlag x (s.getV x + s.getV y) (addFlag (s.getV x) (s.getV y))).advance 1)

/-- SUB Vx, Vy (R157). -/
def execSubReg (x y : Reg) (s : State) : Result :=
  .next ((s.setResultFlag x (s.getV x - s.getV y) (subFlag (s.getV x) (s.getV y))).advance 1)

/-- SHR Vx (R158); the word's `y` nibble is ignored. -/
def execShr (x : Reg) (s : State) : Result :=
  .next ((s.setResultFlag x (s.getV x >>> 1) (shrFlag (s.getV x))).advance 1)

/-- SUBN Vx, Vy (R159). -/
def execSubnReg (x y : Reg) (s : State) : Result :=
  .next ((s.setResultFlag x (s.getV y - s.getV x) (subnFlag (s.getV x) (s.getV y))).advance 1)

/-- SHL Vx (R160); the word's `y` nibble is ignored. -/
def execShl (x : Reg) (s : State) : Result :=
  .next ((s.setResultFlag x (s.getV x <<< 1) (shlFlag (s.getV x))).advance 1)

/-- RND Vx, byte (R161): the free byte of this draw, masked. -/
def execRnd (x : Reg) (kk : Byte) (s : State) : Result :=
  .next ((s.countDraw.setV x (Config.drawByte s.draws &&& kk)).advance 1)

end Sys2Proof.Machine
end

