-- ==== Sys2Proof/Machine/ControlFlow.lean ====
section
/-! DEFINITION. Control transfer and skips (spec 41_control_flow.md). -/

namespace Sys2Proof.Machine

/-- RET: "PC becomes the popped value" (R121); an empty stack halts. -/
def execRet (s : State) : Result :=
  match s.stack with
  | [] => haltAt .ret .stackUnderflow s
  | a :: rest => .next ((s.setStack rest).setPC a)

/-- JP addr (R122). -/
def execJp (nnn : Addr) (s : State) : Result := .next (s.setPC (zextAddr nnn))

/-- CALL addr (R123): pushes the address after itself; a reached finite STACK_DEPTH halts. -/
def execCall (nnn : Addr) (s : State) : Result :=
  if s.stackFull then haltAt (.call nnn) .stackOverflow s
  else .next ((s.setStack ((s.PC + 2) :: s.stack)).setPC (zextAddr nnn))

/-- SE Vx, byte (R124). -/
def execSeByte (x : Reg) (kk : Byte) (s : State) : Result := .next (s.advance (skipIf (decide (s.getV x = kk))))

/-- SNE Vx, byte (R125). -/
def execSneByte (x : Reg) (kk : Byte) (s : State) : Result := .next (s.advance (skipIf (decide (s.getV x ≠ kk))))

/-- SE Vx, Vy (R126). -/
def execSeReg (x y : Reg) (s : State) : Result := .next (s.advance (skipIf (decide (s.getV x = s.getV y))))

/-- SNE Vx, Vy (R127). -/
def execSneReg (x y : Reg) (s : State) : Result := .next (s.advance (skipIf (decide (s.getV x ≠ s.getV y))))

/-- JP V0, addr (R128): 16-bit sum, no mask. -/
def execJpV0 (nnn : Addr) (s : State) : Result := .next (s.setPC (zextAddr nnn + zextByte (s.getV 0)))

/-- SKP Vx (R129). -/
def execSkp (x : Reg) (s : State) : Result :=
  match keyOfByte (s.getV x) with
  | none => haltAt (.skp x) .keyRange s
  | some k => .next (s.advance (skipIf (s.isHeld k)))

/-- SKNP Vx (R130). -/
def execSknp (x : Reg) (s : State) : Result :=
  match keyOfByte (s.getV x) with
  | none => haltAt (.sknp x) .keyRange s
  | some k => .next (s.advance (skipIf (!s.isHeld k)))

end Sys2Proof.Machine
end

