-- ==== Sys2Proof/Machine/DisplayOps.lean ====
section
/-! DEFINITION. The display instructions (spec 45_display.md). -/

namespace Sys2Proof.Machine

/-- CLS (R220). -/
def execCls (s : State) : Result := .next ((s.setDisp (Vector.replicate 32 0)).advance 1)

/-- DRW Vx, Vy, nibble (R221): the sprite's bytes are read after the range check, VF is written last. -/
def execDrw (x y : Reg) (n : Nibble) (s : State) : Result :=
  match loadCheck s.I.toNat n.toNat with
  | some reason => haltAt (.drw x y n) reason s
  | none =>
    let drawn := drawSprite (startCol (s.getV x)) (startRow (s.getV y)) (s.mem.readBytes s.I.toNat n.toNat) s.Disp
    .next (((s.setDisp drawn.1).setV VF (flagByte drawn.2)).advance 1)

end Sys2Proof.Machine
end

