-- ==== Sys2Proof/Machine/IndexMemory.lean ====
section
/-! DEFINITION. The address register and memory transfers (spec 43_index_memory.md). -/

namespace Sys2Proof.Machine

/-- LD I, addr (R180). -/
def execLdI (nnn : Addr) (s : State) : Result := .next ((s.setI (zextAddr nnn)).advance 1)

/-- ADD I, Vx (R181): modulo 2^16, VF not written. -/
def execAddIVx (x : Reg) (s : State) : Result := .next ((s.setI (s.I + zextByte (s.getV x))).advance 1)

/-- LD F, Vx (R182). -/
def execLdFVx (x : Reg) (s : State) : Result :=
  match digitOfByte (s.getV x) with
  | none => haltAt (.ldFVx x) .fontRange s
  | some d => .next ((s.setI (glyphAddr s.cfg.fontBase d)).advance 1)

/-- Stores bytes from I up after every check, leaving I; an instruction that halts writes nothing (R183, R184, 40_execution_cycle.md R104). -/
def storeAtI (i : Instr) (bytes : List Byte) (s : State) : Result :=
  match storeCheck s.cfg s.I.toNat bytes.length with
  | some reason => haltAt i reason s
  | none => .next ((s.setMem (s.mem.writeBytes s.I.toNat bytes)).advance 1)

/-- LD B, Vx (R183). -/
def execLdBVx (x : Reg) (s : State) : Result := storeAtI (.ldBVx x) (decimalDigits (s.getV x)) s

/-- LD [I], Vx (R184). -/
def execLdMemVx (x : Reg) (s : State) : Result := storeAtI (.ldMemVx x) (s.regBlock x) s

/-- LD Vx, [I] (R185). -/
def execLdVxMem (x : Reg) (s : State) : Result :=
  match loadCheck s.I.toNat (x.val + 1) with
  | some reason => haltAt (.ldVxMem x) reason s
  | none => .next ((s.loadRegBlock x s.I.toNat).advance 1)

end Sys2Proof.Machine
end

