-- ==== Sys2Proof/Machine/TimersKeys.lean ====
section
/-! DEFINITION. Timer and keyboard instructions (spec 44_timers_keys.md). -/

namespace Sys2Proof.Machine

/-- LD Vx, DT (R200). -/
def execLdVxDT (x : Reg) (s : State) : Result := .next ((s.setV x s.DT).advance 1)

/-- LD Vx, K (R201): a latched key is consumed; with none PC does not move and the next tick runs this again. -/
def execLdVxK (x : Reg) (s : State) : Result :=
  match s.latch with
  | some k => .next (((s.setLatch none).setV x (byteOfKey k)).advance 1)
  | none => .next ((s.setLatch none).advance 0)

/-- LD DT, Vx (R202). -/
def execLdDTVx (x : Reg) (s : State) : Result := .next ((s.setDT (s.getV x)).advance 1)

/-- LD ST, Vx (R203). -/
def execLdSTVx (x : Reg) (s : State) : Result := .next ((s.setST (s.getV x)).advance 1)

end Sys2Proof.Machine
end

