-- ==== Sys2Proof/Machine/Cycle.lean ====
section
/-! DEFINITION. Fetch, the CPU tick (spec 40_execution_cycle.md), the turns of the agents, and how a word is placed to be fetched next. -/

namespace Sys2Proof.Machine

/-- The two bytes at [PC, PC+1], or none when one of them lies outside memory (R101: `PC >= 0x0FFF`). -/
def fetchBytes (s : State) : Option (List Byte) :=
  if s.PC.toNat ≥ 0x0FFF then none else some (s.mem.readBytes s.PC.toNat 2)

/-- The opcode at [PC, PC+1], big-endian (R101). -/
def fetchWord (s : State) : Word := wordOfBytes (s.mem.read s.PC.toNat) (s.mem.read (s.PC.toNat + 1))

/-- `Tick(s)` (R106): fetch, decode, execute, advance, as one indivisible step. -/
def tick (s : State) : Result :=
  match fetchBytes s with
  | none => .next (s.halt .memRange none)
  | some bytes =>
    match decode s.cfg.shiftYDontCare bytes with
    | .error _ => .next (s.halt .unhandled (some (fetchWord s)))
    | .ok i => exec i s

/-- One agent's step (60_exceptions.md R253). -/
def takeTurn : Turn → State → Result
  | .cpu, s => tick s
  | .delayTimer, s => .next (delayTick s)
  | .soundTimer, s => .next (soundTick s)
  | .keyPress k, s => .next (keyPress k s)
  | .keyRelease k, s => .next (keyRelease k s)
  | .close, s => .next (closeRequest s)

/-- A round with a turn added for each of the CPU and the two timers that has none in it: "each timer agent steps infinitely
often, and the CPU ticks infinitely often" (60_exceptions.md R248). -/
def fairRound (l : List Turn) : List Turn := l ++ [Turn.cpu, .delayTimer, .soundTimer].filter fun t => decide (t ∉ l)

/-- The round that begins when the schedule is spent (log 5). -/
def State.nextRound (s : State) : List Turn :=
  fairRound (match s.pace with
    | .cycle round => round
    | .free => Config.freeRound s.rounds)

/-- The turns to come, next first: what is left of the present round, or else the next round. -/
def State.turns (s : State) : List Turn :=
  match s.schedule with
  | [] => s.nextRound
  | t :: rest => t :: rest

/-- Whether the next turn is the CPU's. -/
def State.cpuTurn (s : State) : Bool := decide (s.turns.head? = some .cpu)

/-- The state with the next turn taken, out of a new round when the present one is spent. -/
def State.popTurn (s : State) : State :=
  { s with schedule := s.turns.tail, rounds := if s.schedule.isEmpty then s.rounds + 1 else s.rounds }

/-- One transition of a running machine: the next turn (60_exceptions.md R248, R253; log 5). A round is never empty. -/
def nextTurn (s : State) : Result :=
  match s.turns with
  | [] => tick s
  | t :: _ => takeTurn t s.popTurn

/-- One transition: enabled exactly when `run = Running` (R100, 60_exceptions.md R244). -/
def transition (s : State) : Result :=
  match s.run with
  | .running => nextTurn s
  | .halted reason addr opcode => .fault (.halted reason addr opcode)

/-- Where `placeWord` puts a word: at PC, or at the program base when nothing can be fetched at PC (log 10). -/
def State.placeAddr (s : State) : Word := if s.PC.toNat ≥ 0x0FFF then 0x200 else s.PC

/-- The state in which the very next transition is a CPU tick that fetches `w`; the host's program load stands behind it (log 10). -/
def placeWord (s : State) (w : Word) : State :=
  { s with
    mem := s.mem.writeBytes s.placeAddr.toNat [highByte w, lowByte w]
    PC := s.placeAddr
    run := .running
    schedule := if s.cpuTurn then s.schedule else .cpu :: s.schedule }

end Sys2Proof.Machine
end

