-- ==== Sys2Proof/Machine/Step.lean ====
section
/-! DEFINITION. One step of the machine, and the host's way to place an instruction. -/

namespace Sys2Proof.Machine

/-- One step (spec 40_execution_cycle.md R100, 60_exceptions.md R253): one agent's turn, or the fault of a halted machine. -/
def step (s : State) : Host.Outcome State Fault Refusal := transition s

/-- `s` with an instruction's bits stored where the next step fetches (log 10). -/
def State.withFetchWord (s : State) (nbits w : Nat) : State := placeWord s (tableWord nbits w)

end Sys2Proof.Machine
end

