-- ==== Sys2Proof/Machine/Launch.lean ====
section
/-! DEFINITION. Reset with every launch parameter, and the program load (spec 00_scope.md R7, 70_reset_and_hazards.md R280, R281). -/

namespace Sys2Proof.Machine

/-- What one launch fixes: the parameters of spec 00_scope.md R7 and the host's program image. -/
structure Launch where
  /-- STACK_DEPTH, FONT_BASE, SHIFT_Y_DONTCARE. -/
  cfg : Config := Config.default
  /-- FONT_GLYPHS. -/
  glyphs : List Byte := fontGlyphs
  /-- init_mem. -/
  initMem : Nat → Byte := fun _ => 0
  /-- init_regs.V. -/
  initV : Vector Byte 16 := Vector.replicate 16 0
  /-- init_regs.I. -/
  initI : Word := 0
  /-- init_regs.DT. -/
  initDT : Byte := 0
  /-- init_regs.ST. -/
  initST : Byte := 0
  /-- The bytes the host loads from 0x200 up (R281). -/
  image : List Byte := []
  /-- The first turns of the agents (60_exceptions.md R248; log 5). -/
  schedule : List Turn := []
  /-- The rounds after them (60_exceptions.md R248; log 5). -/
  pace : Pace := State.reset.pace

/-- The size of the program region, 3584 bytes (R281). -/
def programSize : Nat := memSize - programBase

/-- The byte of memory at an address after the load: glyph, image byte, or `init_mem` (R280, R281). -/
def Launch.byteAt (p : Launch) (a : Nat) : Byte :=
  if inFont p.cfg a then p.glyphs.getD (a - p.cfg.fontBase) 0
  else if programBase ≤ a ∧ a < programBase + p.image.length then p.image.getD (a - programBase) 0
  else p.initMem a

/-- A launch the spec describes: the digit region below the program region, 80 glyph bytes, an image that fits. -/
def Launch.wf (p : Launch) : Bool :=
  p.cfg.wf && decide (p.glyphs.length = fontSize) && decide (p.image.length ≤ programSize)

/-- The state a launch leaves: reset with its parameters, and its image loaded (R280). -/
def State.launched (p : Launch) : State :=
  { State.reset with
    mem := Memory.ofBytes p.byteAt
    V := p.initV
    I := p.initI
    DT := p.initDT
    ST := p.initST
    cfg := p.cfg
    schedule := p.schedule
    pace := p.pace }

/-- Reset and program load (R280, R281). A larger image is a load error: "program does not start". -/
def State.launch (p : Launch) : Option State :=
  if p.image.length ≤ programSize then some (State.launched p) else none

end Sys2Proof.Machine
end

