-- ==== Sys2Proof/Safety.lean ====
section
/-! DEFINITION. The terms claims use: what a step leaves unchanged, the invariant of the machine, and the display as pixels. -/

namespace Sys2Proof.Machine

/-- The named parts of State. -/
inductive Part where
  | mem | V | I | PC | stack | DT | ST | Disp | held | latch | run | cfg | draws | schedule | pace | rounds | tones
deriving DecidableEq, Repr

/-- Every part of State but the named ones is the same in both states; memory is compared byte by byte, through its read. -/
structure SameBut (parts : List Part) (s t : State) : Prop where
  mem : .mem ∉ parts → ∀ a, t.mem.read a = s.mem.read a
  V : .V ∉ parts → ∀ r, t.getV r = s.getV r
  I : .I ∉ parts → t.I = s.I
  PC : .PC ∉ parts → t.PC = s.PC
  stack : .stack ∉ parts → t.stack = s.stack
  DT : .DT ∉ parts → t.DT = s.DT
  ST : .ST ∉ parts → t.ST = s.ST
  Disp : .Disp ∉ parts → ∀ r c, t.pixel r c = s.pixel r c
  held : .held ∉ parts → ∀ k, t.isHeld k = s.isHeld k
  latch : .latch ∉ parts → t.latch = s.latch
  run : .run ∉ parts → t.run = s.run
  cfg : .cfg ∉ parts → t.cfg = s.cfg
  draws : .draws ∉ parts → t.draws = s.draws
  schedule : .schedule ∉ parts → t.schedule = s.schedule
  pace : .pace ∉ parts → t.pace = s.pace
  rounds : .rounds ∉ parts → t.rounds = s.rounds
  tones : .tones ∉ parts → t.tones = s.tones

/-- Every general register but the named ones is the same. -/
def RegsSameBut (regs : List Reg) (s t : State) : Prop := ∀ r, r ∉ regs → t.getV r = s.getV r

/-- `t` is `s` halted with this report and nothing else changed (spec 60_exceptions.md R243). -/
def HaltedFrom (s t : State) (reason : HaltReason) (opcode : Option Word) : Prop :=
  t.run = .halted reason s.PC opcode ∧ SameBut [.run] s t

/-- The PC of the next instruction, one opcode width on (spec 40_execution_cycle.md R103). -/
def nextPC (s : State) : Nat := (s.PC.toNat + 2) % 2 ^ 16

/-- The PC after a skip, two opcode widths on (spec 40_execution_cycle.md R105). -/
def skipPC (s : State) : Nat := (s.PC.toNat + 4) % 2 ^ 16

/-- Whether sprite byte `b` drawn from column `col0` sets column c: bit `7 - j` is 1 where `c = (col0 + j) mod 64`
for some j in 0..7 (spec 45_display.md R222). -/
def spriteCovers (col0 : Nat) (b : Byte) (c : Fin 64) : Prop :=
  ∃ j, j < 8 ∧ c.val = (col0 + j) % 64 ∧ b.getLsbD (7 - j) = true

/-- Whether the sprite's bytes, drawn from (row0, col0), set pixel (r, c): byte k lies in row `(row0 + k) mod 32`
(spec 45_display.md R222, R223). -/
def spriteSets (col0 row0 : Nat) (bytes : List Byte) (r : Fin 32) (c : Fin 64) : Prop :=
  ∃ k, k < bytes.length ∧ r.val = (row0 + k) % 32 ∧ spriteCovers col0 (bytes.getD k 0) c

/-- The general registers an instruction may change: its destinations, and VF where it sets the flag (spec 10_state.md R21, R22). -/
def destRegs : Instr → List Reg
  | .ldByte x _ | .addByte x _ | .ldReg x _ | .orReg x _ | .andReg x _ | .xorReg x _ | .rnd x _ | .ldVxDT x | .ldVxK x => [x]
  | .addReg x _ | .subReg x _ | .shr x _ | .subnReg x _ | .shl x _ => [x, VF]
  | .drw _ _ _ => [VF]
  | .ldVxMem x => (List.finRange 16).filter fun r => decide (r ≤ x)
  | .cls | .ret | .jp _ | .call _ | .seByte _ _ | .sneByte _ _ | .seReg _ _ | .sneReg _ _ | .ldI _ | .jpV0 _ | .skp _
  | .sknp _ | .ldDTVx _ | .ldSTVx _ | .addIVx _ | .ldFVx _ | .ldBVx _ | .ldMemVx _ => []

/-- The instruction that the two bytes at PC decode to in `s`, if any. -/
def instrAtPC (s : State) : Option Instr := decodeWord s.cfg.shiftYDontCare (fetchWord s)

/-- What has to hold of `s` for its CPU tick or its host to halt it with a reason and a reported opcode (spec
60_exceptions.md R240, its columns "cause" and "opcode"). -/
def haltCause (s : State) (opcode : Option Word) : HaltReason → Prop
  | .unhandled => s.cpuTurn = true ∧ s.PC.toNat < 0x0FFF ∧ opcode = some (fetchWord s) ∧ instrAtPC s = none
  | .hostExit => s.turns.head? = some .close ∧ opcode = none
  | .stackUnderflow => s.cpuTurn = true ∧ opcode = some 0x00EE ∧ instrAtPC s = some .ret ∧ s.stack = []
  | .stackOverflow =>
    s.cpuTurn = true ∧ opcode = some (fetchWord s) ∧ s.cfg.stackDepth = some s.stack.length ∧
      ∃ nnn, instrAtPC s = some (.call nnn)
  | .memRange =>
    s.cpuTurn = true ∧
      ((0x0FFF ≤ s.PC.toNat ∧ opcode = none) ∨
        (opcode = some (fetchWord s) ∧
          ((∃ x y n, instrAtPC s = some (.drw x y n) ∧ 0 < n.toNat ∧ 0x1000 ≤ s.I.toNat + n.toNat - 1) ∨
            (∃ x, instrAtPC s = some (.ldBVx x) ∧ 0x1000 ≤ s.I.toNat + 2) ∨
            (∃ x, (instrAtPC s = some (.ldMemVx x) ∨ instrAtPC s = some (.ldVxMem x)) ∧ 0x1000 ≤ s.I.toNat + x.val))))
  | .fontWrite =>
    s.cpuTurn = true ∧ opcode = some (fetchWord s) ∧
      ∃ x k, s.cfg.fontBase ≤ s.I.toNat + k ∧ s.I.toNat + k < s.cfg.fontBase + 80 ∧
        ((instrAtPC s = some (.ldBVx x) ∧ k ≤ 2) ∨ (instrAtPC s = some (.ldMemVx x) ∧ k ≤ x.val))
  | .keyRange =>
    s.cpuTurn = true ∧ opcode = some (fetchWord s) ∧
      ∃ x, (instrAtPC s = some (.skp x) ∨ instrAtPC s = some (.sknp x)) ∧ 0xF < (s.getV x).toNat
  | .fontRange =>
    s.cpuTurn = true ∧ opcode = some (fetchWord s) ∧ ∃ x, instrAtPC s = some (.ldFVx x) ∧ 0xF < (s.getV x).toNat

/-- The invariant of the machine: memory in canonical form, the digit region below the program region, PC at most
0x10FE (spec 10_state.md R24), every return address at most 0x1000 (41_control_flow.md R121), and a finite STACK_DEPTH
not exceeded (10_state.md R26). -/
structure Inv (s : State) : Prop where
  mem : s.mem.wf = true
  cfg : s.cfg.wf = true
  PC : s.PC.toNat ≤ 0x10FE
  stack : ∀ a ∈ s.stack, a.toNat ≤ 0x1000
  depth : ∀ d, s.cfg.stackDepth = some d → s.stack.length ≤ d

end Sys2Proof.Machine
end

