-- ==== Sys2Proof/Certificates/Slice0/Obligations.lean ====
section
/-! DEFINITION. The statements for the provers, from the numbered rules of spec/, file by file. -/

open Sys2Proof Sys2Proof.Machine

/-! ### Encoding (spec 30_encoding.md) -/

/-- No bit of an operand is dropped: the bytes of a well-formed instruction decode to it, for both values of SHIFT_Y_DONTCARE. -/
def Obligations.DecodeReadsBackEveryEncodedInstruction : Prop :=
  ∀ (yDontCare : Bool) (i : Instr), i.wf yDontCare = true → decode yDontCare (encodeBytes i) = .ok i

/-- Every pair of bytes that decodes is the encoding of the well-formed instruction it decodes to. For 8xy6 and 8xyE with y ≠ 0 under
SHIFT_Y_DONTCARE this is the model's choice: its instruction carries the y that the spec ignores (log 11). -/
def Obligations.EncodeReproducesEveryDecodedWord : Prop :=
  ∀ (yDontCare : Bool) (hi lo : Byte) (i : Instr), decode yDontCare [hi, lo] = .ok i →
    i.wf yDontCare = true ∧ encodeBytes i = [hi, lo]

/-- R75: no opcode matches two rows; every declaration order gives the same result; exactly one row matches a valid opcode. -/
def Obligations.FirstMatchScanIsFreeOfOrder : Prop :=
  ∀ (yDontCare : Bool) (op : Word),
    (table yDontCare).countP (fun d => d.accepts op) ≤ 1 ∧
    (∀ rows : List Descriptor, rows.Perm (table yDontCare) → scan rows op = decodeWord yDontCare op) ∧
    (decodeWord yDontCare op ≠ none ↔ (table yDontCare).countP (fun d => d.accepts op) = 1)

/-- R76's columns "expected" and "mask" are what its patterns compile to by R74, and a row accepts an opcode iff the
masked opcode is the expected value; a character outside the alphabet gives no pair. -/
def Obligations.PatternsCompileToTheirExpectedAndMask : Prop :=
  (∀ (yDontCare : Bool) (d : Descriptor), d ∈ table yDontCare →
    compilePattern d.pattern.toList = some (d.expected, d.mask) ∧ ∀ op, d.accepts op = true ↔ op &&& d.mask = d.expected) ∧
  (∀ (p : List Char) (c : Char), c ∈ p → c ≠ 'x' → hexDigit? c = none → isSeparator c = false → compilePattern p = none)

/-- The words that match no row under the default parameters are the seven classes of R77. -/
def Obligations.UnhandledWordsAreTheSevenClasses : Prop :=
  ∀ op : Word, decodeWord false op = none ↔
    (op.toNat ≤ 0x0FFF ∧ op.toNat ≠ 0x00E0 ∧ op.toNat ≠ 0x00EE) ∨
    (op.toNat / 4096 = 5 ∧ op.toNat % 16 ≠ 0) ∨
    (op.toNat / 4096 = 8 ∧ op.toNat % 16 ∈ [0x8, 0x9, 0xA, 0xB, 0xC, 0xD, 0xF]) ∨
    (op.toNat / 4096 = 8 ∧ op.toNat % 16 ∈ [0x6, 0xE] ∧ op.toNat / 16 % 16 ≠ 0) ∨
    (op.toNat / 4096 = 9 ∧ op.toNat % 16 ≠ 0) ∨
    (op.toNat / 4096 = 14 ∧ op.toNat % 256 ∉ [0x9E, 0xA1]) ∨
    (op.toNat / 4096 = 15 ∧ op.toNat % 256 ∉ [0x07, 0x0A, 0x15, 0x18, 0x1E, 0x29, 0x33, 0x55, 0x65])

/-- Words written out from the encodings of R76, one of each format, and words of R77 that stand for no instruction. -/
def Obligations.WordsOfTheOpcodeMapDecode : Prop :=
  decode false [0x00, 0xE0] = .ok .cls ∧ decode false [0x12, 0x00] = .ok (.jp 0x200) ∧
  decode false [0x63, 0x10] = .ok (.ldByte 3 0x10) ∧ decode false [0x73, 0x05] = .ok (.addByte 3 0x05) ∧
  decode false [0x8A, 0xB5] = .ok (.subReg 0xA 0xB) ∧ decode false [0x8C, 0x06] = .ok (.shr 0xC 0) ∧
  decode false [0xD0, 0x15] = .ok (.drw 0 1 5) ∧ decode false [0xE5, 0x9E] = .ok (.skp 5) ∧
  decode false [0xF2, 0x65] = .ok (.ldVxMem 2) ∧ decode false [0x50, 0x01] = .error (.unhandled 0x5001) ∧
  decode false [0x80, 0x16] = .error (.unhandled 0x8016) ∧ decode true [0x80, 0x16] = .ok (.shr 0 1)

/-! ### The tick (spec 40_execution_cycle.md) -/

/-- When the CPU has the turn and the bytes at PC decode to an instruction, the step is that instruction's execution, at the
state with the turn taken off the schedule (R106; the schedule is the model's, log 5). -/
def Obligations.StepRunsTheDecodedInstruction : Prop :=
  ∀ (s : State) (i : Instr), s.run = .running → s.cpuTurn = true → s.PC.toNat < 0x0FFF →
    decode s.cfg.shiftYDontCare [s.mem.read s.PC.toNat, s.mem.read (s.PC.toNat + 1)] = .ok i →
    step s = exec i s.popTurn

/-- R101: a tick first checks the fetch address, then reads two bytes, the one at PC in the high half. That the halting step also takes
the schedule's turn is the model's (log 5). -/
def Obligations.FetchChecksThenReadsBigEndian : Prop :=
  (∀ s : State, s.run = .running → s.cpuTurn = true → 0x0FFF ≤ s.PC.toNat →
    ∃ t, step s = .next t ∧ HaltedFrom s.popTurn t .memRange none) ∧
  (∀ s : State, s.PC.toNat < 0x0FFF →
    fetchBytes s = some [s.mem.read s.PC.toNat, s.mem.read (s.PC.toNat + 1)] ∧
    (fetchWord s).toNat = 256 * (s.mem.read s.PC.toNat).toNat + (s.mem.read (s.PC.toNat + 1)).toNat)

/-- R102: a fetched word that no row matches halts UNHANDLED with the raw opcode and address, PC unchanged. That the step also takes the
schedule's turn is the model's (log 5). -/
def Obligations.UnhandledWordHalts : Prop :=
  ∀ s : State, s.run = .running → s.cpuTurn = true → s.PC.toNat < 0x0FFF →
    (∀ d ∈ table s.cfg.shiftYDontCare, fetchWord s &&& d.mask ≠ d.expected) →
    ∃ t, step s = .next t ∧ HaltedFrom s.popTurn t .unhandled (some (fetchWord s))

/-- R243: whatever step halts the machine writes only `run`, with the PC from before (the schedule's turn is the model's,
log 5), and a reported opcode is the word fetched there. -/
def Obligations.EveryHaltIsPrecise : Prop :=
  ∀ s t : State, step s = .next t → t.run ≠ .running →
    ∃ reason opcode, HaltedFrom s.popTurn t reason opcode ∧ (opcode = none ∨ opcode = some (fetchWord s))

/-- R240: a step that halts the machine with a reason does so only for that reason's cause, with PC as the address and the
opcode the table gives; and the reasons have the table's codes. Whose turn it was is read from the model's schedule (log 5). -/
def Obligations.EveryHaltHasItsCause : Prop :=
  (∀ (s t : State) (reason : HaltReason) (addr : Word) (opcode : Option Word),
    step s = .next t → t.run = .halted reason addr opcode → addr = s.PC ∧ haltCause s opcode reason) ∧
  [HaltReason.unhandled, .hostExit, .stackUnderflow, .stackOverflow, .memRange, .fontWrite, .keyRange, .fontRange].map
    HaltReason.code = [1, 2, 3, 4, 5, 6, 7, 8]

/-- R244: nothing changes after a halt: no step of a halted machine gives a next state. -/
def Obligations.NoStepFollowsAHalt : Prop :=
  ∀ s t : State, step s = .next t → s.run = .running

/-- The model's answer for a halted machine is the fault that carries its report, whatever is scheduled (log 7). -/
def Obligations.HaltedMachineAnswersItsReport : Prop :=
  ∀ (s : State) (reason : HaltReason) (addr : Word) (opcode : Option Word),
    s.run = .halted reason addr opcode → step s = .fault (.halted reason addr opcode)

/-- No instruction ends in a fault or a refusal, and a running machine always takes its step (R100: "the tick function is total").
Whatever turns are scheduled are taken in their order, and in every run that does not halt the CPU and each timer have turns
infinitely often (R248; turns and rounds are the model's form of it, log 5). -/
def Obligations.RunningMachineAlwaysSteps : Prop :=
  (∀ (i : Instr) (s : State), ∃ t, exec i s = .next t) ∧ (∀ s : State, s.run = .running → ∃ t, step s = .next t) ∧
  (∀ (s t : State) (turns rest : List Turn) (k : Nat), s.schedule = turns ++ rest → k < turns.length →
    Host.Core.run Sys2Proof.core k s = .next t → t.turns.head? = turns[k]?) ∧
  (∀ (s : State) (u : Turn) (n : Nat), u ∈ [Turn.cpu, .delayTimer, .soundTimer] → s.run = .running →
    (∃ m t, Host.Core.run Sys2Proof.core m s = .next t ∧ t.run ≠ .running) ∨
    ∃ m t, n ≤ m ∧ Host.Core.run Sys2Proof.core m s = .next t ∧ t.run = .running ∧ t.turns.head? = some u)

/-- R103: an instruction that goes on advances PC by 1 or 2 opcode widths, except the four that set PC and LD Vx, K with no key. -/
def Obligations.InstructionsAdvanceByOpcodeWidths : Prop :=
  ∀ (i : Instr) (s t : State), s.run = .running → exec i s = .next t → t.run = .running →
    t.PC.toNat = nextPC s ∨ t.PC.toNat = skipPC s ∨ (t.PC = s.PC ∧ s.latch = none ∧ ∃ x, i = .ldVxK x) ∨
      i = .ret ∨ ∃ nnn, i = .jp nnn ∨ i = .call nnn ∨ i = .jpV0 nnn

/-! ### Control flow (spec 41_control_flow.md) -/

/-- R121: RET pops the most recent return address into PC; an empty stack halts. -/
def Obligations.RetPopsIntoPC : Prop :=
  (∀ (s : State) (a : Word) (rest : List Word), s.stack = a :: rest →
    ∃ t, exec .ret s = .next t ∧ t.PC = a ∧ t.stack = rest ∧ SameBut [.PC, .stack] s t) ∧
  (∀ s : State, s.stack = [] → ∃ t, exec .ret s = .next t ∧ HaltedFrom s t .stackUnderflow (some 0x00EE))

/-- R122: JP sets PC to its address. -/
def Obligations.JpSetsPC : Prop :=
  ∀ (nnn : Addr) (s : State), ∃ t, exec (.jp nnn) s = .next t ∧ t.PC.toNat = nnn.toNat ∧ SameBut [.PC] s t

/-- R123: CALL pushes the address after itself and jumps; at a reached finite STACK_DEPTH it halts. -/
def Obligations.CallPushesAndJumps : Prop :=
  ∀ (nnn : Addr) (s : State),
    (s.cfg.stackDepth ≠ some s.stack.length →
      ∃ t, exec (.call nnn) s = .next t ∧ t.PC.toNat = nnn.toNat ∧
        (∃ a : Word, a.toNat = (s.PC.toNat + 2) % 2 ^ 16 ∧ t.stack = a :: s.stack) ∧ SameBut [.PC, .stack] s t) ∧
    (s.cfg.stackDepth = some s.stack.length →
      ∃ t, exec (.call nnn) s = .next t ∧ HaltedFrom s t .stackOverflow (some (BitVec.ofNat 16 (0x2000 + nnn.toNat))))

/-- A CALL and a RET after it resume after the CALL with the stack as it was (R121, R123). -/
def Obligations.RetAfterCallResumes : Prop :=
  ∀ (nnn : Addr) (s t u : State), s.cfg.stackDepth ≠ some s.stack.length → exec (.call nnn) s = .next t →
    exec .ret t = .next u → u.PC.toNat = nextPC s ∧ SameBut [.PC] s u

/-- R124 and R125: SE and SNE with a byte skip on equality and on difference; they change PC alone. -/
def Obligations.ByteSkipsCompareTheRegister : Prop :=
  ∀ (x : Reg) (kk : Byte) (s : State),
    (∃ t, exec (.seByte x kk) s = .next t ∧ t.PC.toNat = (if s.getV x = kk then skipPC s else nextPC s) ∧ SameBut [.PC] s t) ∧
    (∃ t, exec (.sneByte x kk) s = .next t ∧ t.PC.toNat = (if s.getV x = kk then nextPC s else skipPC s) ∧ SameBut [.PC] s t)

/-- R126 and R127: SE and SNE with two registers; they change PC alone. -/
def Obligations.RegisterSkipsCompareTheRegisters : Prop :=
  ∀ (x y : Reg) (s : State),
    (∃ t, exec (.seReg x y) s = .next t ∧ t.PC.toNat = (if s.getV x = s.getV y then skipPC s else nextPC s) ∧
      SameBut [.PC] s t) ∧
    (∃ t, exec (.sneReg x y) s = .next t ∧ t.PC.toNat = (if s.getV x = s.getV y then nextPC s else skipPC s) ∧
      SameBut [.PC] s t)

/-- R128: JP V0 adds V0 to its address, in 16 bits and with no wrap. -/
def Obligations.JpV0AddsV0 : Prop :=
  ∀ (nnn : Addr) (s : State),
    ∃ t, exec (.jpV0 nnn) s = .next t ∧ t.PC.toNat = nnn.toNat + (s.getV 0).toNat ∧ SameBut [.PC] s t

/-- R129 and R130: SKP and SKNP skip on the held bit of the key Vx names; above 0xF they halt. -/
def Obligations.KeySkipsReadTheHeldKey : Prop :=
  ∀ (x : Reg) (s : State),
    (∀ k : Key, (s.getV x).toNat = k.val →
      (∃ t, exec (.skp x) s = .next t ∧ t.PC.toNat = (if s.isHeld k then skipPC s else nextPC s) ∧ SameBut [.PC] s t) ∧
      (∃ t, exec (.sknp x) s = .next t ∧ t.PC.toNat = (if s.isHeld k then nextPC s else skipPC s) ∧ SameBut [.PC] s t)) ∧
    (0xF < (s.getV x).toNat →
      (∃ t, exec (.skp x) s = .next t ∧ HaltedFrom s t .keyRange (some (BitVec.ofNat 16 (0xE09E + 256 * x.val)))) ∧
      (∃ t, exec (.sknp x) s = .next t ∧ HaltedFrom s t .keyRange (some (BitVec.ofNat 16 (0xE0A1 + 256 * x.val)))))

/-! ### Arithmetic and logic (spec 42_alu.md) -/

/-- R150 and R151: the two immediate forms; the sum is modulo 256 and sets no flag. -/
def Obligations.ImmediateFormsWriteVx : Prop :=
  ∀ (x : Reg) (kk : Byte) (s : State),
    (∃ t, exec (.ldByte x kk) s = .next t ∧ t.getV x = kk ∧ t.PC.toNat = nextPC s ∧ RegsSameBut [x] s t ∧
      SameBut [.V, .PC] s t) ∧
    (∃ t, exec (.addByte x kk) s = .next t ∧ (t.getV x).toNat = ((s.getV x).toNat + kk.toNat) % 256 ∧
      t.PC.toNat = nextPC s ∧ RegsSameBut [x] s t ∧ SameBut [.V, .PC] s t)

/-- R152 to R155: the copy and the three bitwise operations, bit by bit; none writes VF unless it is Vx. -/
def Obligations.CopyAndLogicWriteVx : Prop :=
  ∀ (x y : Reg) (s : State),
    (∃ t, exec (.ldReg x y) s = .next t ∧ t.getV x = s.getV y ∧ t.PC.toNat = nextPC s ∧ RegsSameBut [x] s t ∧
      SameBut [.V, .PC] s t) ∧
    (∃ t, exec (.orReg x y) s = .next t ∧
      (∀ b, (t.getV x).getLsbD b = ((s.getV x).getLsbD b || (s.getV y).getLsbD b)) ∧
      t.PC.toNat = nextPC s ∧ RegsSameBut [x] s t ∧ SameBut [.V, .PC] s t) ∧
    (∃ t, exec (.andReg x y) s = .next t ∧
      (∀ b, (t.getV x).getLsbD b = ((s.getV x).getLsbD b && (s.getV y).getLsbD b)) ∧
      t.PC.toNat = nextPC s ∧ RegsSameBut [x] s t ∧ SameBut [.V, .PC] s t) ∧
    (∃ t, exec (.xorReg x y) s = .next t ∧
      (∀ b, (t.getV x).getLsbD b = ((s.getV x).getLsbD b ^^ (s.getV y).getLsbD b)) ∧
      t.PC.toNat = nextPC s ∧ RegsSameBut [x] s t ∧ SameBut [.V, .PC] s t)

/-- R156: the 8-bit sum, then the carry in VF last (so VF is the carry when x = F). -/
def Obligations.AddWritesSumThenCarry : Prop :=
  ∀ (x y : Reg) (s : State),
    ∃ t, exec (.addReg x y) s = .next t ∧
      (x ≠ VF → (t.getV x).toNat = ((s.getV x).toNat + (s.getV y).toNat) % 256) ∧
      t.getV VF = (if (s.getV x).toNat + (s.getV y).toNat > 255 then 1 else 0) ∧
      t.PC.toNat = nextPC s ∧ RegsSameBut [x, VF] s t ∧ SameBut [.V, .PC] s t

/-- R157 and R159: the 8-bit differences, then the strict comparison in VF last. -/
def Obligations.SubtractsWriteDifferenceThenComparison : Prop :=
  ∀ (x y : Reg) (s : State),
    (∃ t, exec (.subReg x y) s = .next t ∧
      (x ≠ VF → (t.getV x).toNat = ((s.getV x).toNat + 256 - (s.getV y).toNat) % 256) ∧
      t.getV VF = (if (s.getV x).toNat > (s.getV y).toNat then 1 else 0) ∧
      t.PC.toNat = nextPC s ∧ RegsSameBut [x, VF] s t ∧ SameBut [.V, .PC] s t) ∧
    (∃ t, exec (.subnReg x y) s = .next t ∧
      (x ≠ VF → (t.getV x).toNat = ((s.getV y).toNat + 256 - (s.getV x).toNat) % 256) ∧
      t.getV VF = (if (s.getV y).toNat > (s.getV x).toNat then 1 else 0) ∧
      t.PC.toNat = nextPC s ∧ RegsSameBut [x, VF] s t ∧ SameBut [.V, .PC] s t)

/-- R158 and R160: the shifts by one of Vx, then the shifted-out bit in VF last; the word's y nibble plays no part. -/
def Obligations.ShiftsWriteResultThenShiftedOutBit : Prop :=
  ∀ (x : Reg) (y : Nibble) (s : State),
    (∃ t, exec (.shr x y) s = .next t ∧ (x ≠ VF → (t.getV x).toNat = (s.getV x).toNat / 2) ∧
      (t.getV VF).toNat = (s.getV x).toNat % 2 ∧
      t.PC.toNat = nextPC s ∧ RegsSameBut [x, VF] s t ∧ SameBut [.V, .PC] s t) ∧
    (∃ t, exec (.shl x y) s = .next t ∧ (x ≠ VF → (t.getV x).toNat = (s.getV x).toNat * 2 % 256) ∧
      (t.getV VF).toNat = (s.getV x).toNat / 128 ∧
      t.PC.toNat = nextPC s ∧ RegsSameBut [x, VF] s t ∧ SameBut [.V, .PC] s t)

/-- R161: RND writes the free byte of this draw, masked; every bit clear in kk is clear in the result. The counter of draws is
the model's (log 4), and the statement holds for every value of it. -/
def Obligations.RndWritesAMaskedFreeByte : Prop :=
  ∀ (x : Reg) (kk : Byte) (s : State),
    ∃ t, exec (.rnd x kk) s = .next t ∧
      (∀ b, (t.getV x).getLsbD b = ((Config.drawByte s.draws).getLsbD b && kk.getLsbD b)) ∧
      t.draws = s.draws + 1 ∧ t.PC.toNat = nextPC s ∧ RegsSameBut [x] s t ∧ SameBut [.V, .PC, .draws] s t

/-- An instruction changes no general register but the destinations that its rule in 41_control_flow.md to 45_display.md names, and VF
where it sets the flag (R22). -/
def Obligations.OnlyDestinationsChange : Prop :=
  ∀ (i : Instr) (s t : State) (r : Reg), exec i s = .next t → t.getV r ≠ s.getV r → r ∈ destRegs i

/-! ### The address register and memory (spec 43_index_memory.md, 20_memory.md) -/

/-- R180 and R181: LD I loads a 12-bit address, ADD I adds Vx modulo 2^16 and sets no flag. -/
def Obligations.IndexIsLoadedAndAdded : Prop :=
  (∀ (nnn : Addr) (s : State),
    ∃ t, exec (.ldI nnn) s = .next t ∧ t.I.toNat = nnn.toNat ∧ t.PC.toNat = nextPC s ∧ SameBut [.I, .PC] s t) ∧
  (∀ (x : Reg) (s : State),
    ∃ t, exec (.addIVx x) s = .next t ∧ t.I.toNat = (s.I.toNat + (s.getV x).toNat) % 2 ^ 16 ∧
      t.PC.toNat = nextPC s ∧ SameBut [.I, .PC] s t)

/-- R182: LD F points I at the glyph of a digit; above 0xF it halts. The premise on FONT_BASE is an invariant (Inv). -/
def Obligations.LdFPointsAtTheGlyph : Prop :=
  ∀ (x : Reg) (s : State), s.cfg.wf = true →
    ((s.getV x).toNat ≤ 0xF →
      ∃ t, exec (.ldFVx x) s = .next t ∧ t.I.toNat = s.cfg.fontBase + 5 * (s.getV x).toNat ∧ t.PC.toNat = nextPC s ∧
        SameBut [.I, .PC] s t) ∧
    (0xF < (s.getV x).toNat →
      ∃ t, exec (.ldFVx x) s = .next t ∧ HaltedFrom s t .fontRange (some (BitVec.ofNat 16 (0xF029 + 256 * x.val))))

/-- R183: LD B stores hundreds, tens and ones at I, I+1, I+2, after the range check and then the digit-region check. -/
def Obligations.LdBStoresDecimalDigits : Prop :=
  ∀ (x : Reg) (s : State), s.mem.wf = true →
    (s.I.toNat + 2 < 0x1000 → (∀ k, k ≤ 2 → inFont s.cfg (s.I.toNat + k) = false) →
      ∃ t, exec (.ldBVx x) s = .next t ∧
        (t.mem.read s.I.toNat).toNat = (s.getV x).toNat / 100 ∧
        (t.mem.read (s.I.toNat + 1)).toNat = (s.getV x).toNat / 10 % 10 ∧
        (t.mem.read (s.I.toNat + 2)).toNat = (s.getV x).toNat % 10 ∧
        (∀ a, a < s.I.toNat ∨ s.I.toNat + 2 < a → t.mem.read a = s.mem.read a) ∧
        t.PC.toNat = nextPC s ∧ SameBut [.mem, .PC] s t) ∧
    (s.I.toNat + 2 < 0x1000 → (∃ k, k ≤ 2 ∧ inFont s.cfg (s.I.toNat + k) = true) →
      ∃ t, exec (.ldBVx x) s = .next t ∧ HaltedFrom s t .fontWrite (some (BitVec.ofNat 16 (0xF033 + 256 * x.val)))) ∧
    (0x1000 ≤ s.I.toNat + 2 →
      ∃ t, exec (.ldBVx x) s = .next t ∧ HaltedFrom s t .memRange (some (BitVec.ofNat 16 (0xF033 + 256 * x.val))))

/-- R184: LD [I] stores V0..Vx at I..I+x, after the range check and then the digit-region check. -/
def Obligations.LdMemStoresTheRegisterBlock : Prop :=
  ∀ (x : Reg) (s : State), s.mem.wf = true →
    (s.I.toNat + x.val < 0x1000 → (∀ k, k ≤ x.val → inFont s.cfg (s.I.toNat + k) = false) →
      ∃ t, exec (.ldMemVx x) s = .next t ∧
        (∀ r : Reg, r ≤ x → t.mem.read (s.I.toNat + r.val) = s.getV r) ∧
        (∀ a, a < s.I.toNat ∨ s.I.toNat + x.val < a → t.mem.read a = s.mem.read a) ∧
        t.PC.toNat = nextPC s ∧ SameBut [.mem, .PC] s t) ∧
    (s.I.toNat + x.val < 0x1000 → (∃ k, k ≤ x.val ∧ inFont s.cfg (s.I.toNat + k) = true) →
      ∃ t, exec (.ldMemVx x) s = .next t ∧ HaltedFrom s t .fontWrite (some (BitVec.ofNat 16 (0xF055 + 256 * x.val)))) ∧
    (0x1000 ≤ s.I.toNat + x.val →
      ∃ t, exec (.ldMemVx x) s = .next t ∧ HaltedFrom s t .memRange (some (BitVec.ofNat 16 (0xF055 + 256 * x.val))))

/-- R185: LD Vx, [I] loads V0..Vx from I..I+x; reading the digit region is allowed. -/
def Obligations.LdVxMemLoadsTheRegisterBlock : Prop :=
  ∀ (x : Reg) (s : State),
    (s.I.toNat + x.val < 0x1000 →
      ∃ t, exec (.ldVxMem x) s = .next t ∧
        (∀ r : Reg, r ≤ x → t.getV r = s.mem.read (s.I.toNat + r.val)) ∧
        (∀ r : Reg, x < r → t.getV r = s.getV r) ∧ t.PC.toNat = nextPC s ∧ SameBut [.V, .PC] s t) ∧
    (0x1000 ≤ s.I.toNat + x.val →
      ∃ t, exec (.ldVxMem x) s = .next t ∧ HaltedFrom s t .memRange (some (BitVec.ofNat 16 (0xF065 + 256 * x.val))))

/-- R57: writes change only the bytes written: after a run of byte stores every address reads its stored byte, or what it read
before, on every memory in canonical form (which Inv keeps) and within the address space. -/
def Obligations.StoresChangeOnlyTheBytesWritten : Prop :=
  ∀ (m : Memory) (a b : Nat) (bytes : List Byte), m.wf = true → a + bytes.length ≤ 0x1000 →
    (m.writeBytes a bytes).read b = (if a ≤ b ∧ b < a + bytes.length then bytes.getD (b - a) 0 else m.read b)

/-- Two memories in the model's canonical form (log 3) that read the same at every address are the same list. -/
def Obligations.EqualMemoriesAreEqualData : Prop :=
  ∀ m n : Memory, m.wf = true → n.wf = true → (∀ a, a < 0x1000 → m.read a = n.read a) → m = n

/-- R63: bytes stored by LD [I] are what the very next fetch of those addresses reads. -/
def Obligations.StoredBytesAreFetched : Prop :=
  ∀ (x : Reg) (s t : State) (r : Reg) (h : r.val + 1 ≤ x.val), s.mem.wf = true → s.run = .running →
    exec (.ldMemVx x) s = .next t → t.run = .running → t.PC.toNat = s.I.toNat + r.val →
    fetchWord t = wordOfBytes (s.getV r) (s.getV ⟨r.val + 1, Nat.lt_of_le_of_lt h x.isLt⟩)

/-- The digit sprites are "never mutated": no step of the machine changes a byte of the digit region (R31, R55). -/
def Obligations.NoStepChangesTheDigitRegion : Prop :=
  ∀ (s t : State) (a : Nat), s.mem.wf = true → step s = .next t → inFont s.cfg a = true → t.mem.read a = s.mem.read a

/-! ### Timers and keys (spec 44_timers_keys.md, 60_exceptions.md) -/

/-- R200: LD Vx, DT reads the delay timer. -/
def Obligations.LdVxDTReadsTheTimer : Prop :=
  ∀ (x : Reg) (s : State),
    ∃ t, exec (.ldVxDT x) s = .next t ∧ t.getV x = s.DT ∧ t.PC.toNat = nextPC s ∧ RegsSameBut [x] s t ∧ SameBut [.V, .PC] s t

/-- R201: LD Vx, K takes and clears a latched key; with none it changes nothing, PC included, and will run again. -/
def Obligations.LdVxKTakesTheLatchOrWaits : Prop :=
  ∀ (x : Reg) (s : State),
    (∀ k : Key, s.latch = some k →
      ∃ t, exec (.ldVxK x) s = .next t ∧ (t.getV x).toNat = k.val ∧ t.latch = none ∧ t.PC.toNat = nextPC s ∧
        RegsSameBut [x] s t ∧ SameBut [.V, .PC, .latch] s t) ∧
    (s.latch = none → ∃ t, exec (.ldVxK x) s = .next t ∧ SameBut [] s t)

/-- R202 and R203: the timers are set from Vx. -/
def Obligations.TimersAreSetFromVx : Prop :=
  ∀ (x : Reg) (s : State),
    (∃ t, exec (.ldDTVx x) s = .next t ∧ t.DT = s.getV x ∧ t.PC.toNat = nextPC s ∧ SameBut [.DT, .PC] s t) ∧
    (∃ t, exec (.ldSTVx x) s = .next t ∧ t.ST = s.getV x ∧ t.PC.toNat = nextPC s ∧ SameBut [.ST, .PC] s t)

/-- R246 and R247: a timer agent's turn decrements its timer toward zero; the sound timer emits a pulse (counted in `tones`, log 6)
when it was above zero; all other CPU state is untouched. That the turn is taken is the model's (log 5). -/
def Obligations.TimerAgentsDecrement : Prop :=
  ∀ s : State, s.run = .running →
    (s.turns.head? = some .delayTimer →
      ∃ t, step s = .next t ∧ t.DT.toNat = s.DT.toNat - 1 ∧ t.schedule = s.turns.tail ∧ SameBut [.DT, .schedule, .rounds] s t) ∧
    (s.turns.head? = some .soundTimer →
      ∃ t, step s = .next t ∧ t.ST.toNat = s.ST.toNat - 1 ∧ t.tones = s.tones + (if s.ST.toNat > 0 then 1 else 0) ∧
        t.schedule = s.turns.tail ∧ SameBut [.ST, .tones, .schedule, .rounds] s t)

/-- R250: a press holds the key and latches it, replacing an earlier one; a release frees the key and leaves the latch;
the host alone changes `held`. That the turn is taken is the model's (log 5). -/
def Obligations.HostKeyStepsUpdateHeldAndLatch : Prop :=
  ∀ (s : State) (k : Key), s.run = .running →
    (s.turns.head? = some (.keyPress k) →
      ∃ t, step s = .next t ∧ t.isHeld k = true ∧ t.latch = some k ∧ (∀ j, j ≠ k → t.isHeld j = s.isHeld j) ∧
        t.schedule = s.turns.tail ∧ SameBut [.held, .latch, .schedule, .rounds] s t) ∧
    (s.turns.head? = some (.keyRelease k) →
      ∃ t, step s = .next t ∧ t.isHeld k = false ∧ (∀ j, j ≠ k → t.isHeld j = s.isHeld j) ∧ t.schedule = s.turns.tail ∧
        SameBut [.held, .schedule, .rounds] s t) ∧
    (∀ t, step s = .next t → t.held ≠ s.held → ∃ j, s.turns.head? = some (.keyPress j) ∨ s.turns.head? = some (.keyRelease j))

/-- R241: a close request halts the machine at the step boundary with no other change. That the turn is taken is the model's (log 5). -/
def Obligations.CloseHaltsAtTheBoundary : Prop :=
  ∀ s : State, s.run = .running → s.turns.head? = some .close → ∃ t, step s = .next t ∧ HaltedFrom s.popTurn t .hostExit none

/-- R27: DT is "never incremented except by an explicit instruction": only a CPU tick of LD DT, Vx raises it (whose turn it was is read
from the model's schedule, log 5). -/
def Obligations.OnlyLdDTRaisesTheDelayTimer : Prop :=
  ∀ s t : State, step s = .next t → s.DT.toNat < t.DT.toNat → s.cpuTurn = true ∧ ∃ x, instrAtPC s = some (.ldDTVx x)

/-- n turns of a timer take it down by n and never below zero, and change nothing else; the sound timer emits one tone for each
decrement, so a value of v gives v tones in v turns or more (R246, R247; turns are entries of the schedule, log 5). -/
def Obligations.TimersCountDown : Prop :=
  ∀ (n : Nat) (s : State) (rest : List Turn), s.run = .running →
    (s.schedule = List.replicate n .delayTimer ++ rest →
      ∃ t, Host.Core.run Sys2Proof.core n s = .next t ∧ t.DT.toNat = s.DT.toNat - n ∧ t.schedule = rest ∧
        SameBut [.DT, .schedule] s t) ∧
    (s.schedule = List.replicate n .soundTimer ++ rest →
      ∃ t, Host.Core.run Sys2Proof.core n s = .next t ∧ t.ST.toNat = s.ST.toNat - n ∧
        t.tones = s.tones + min n s.ST.toNat ∧ t.schedule = rest ∧ SameBut [.ST, .tones, .schedule] s t)

/-- R249: a timer write and a timer tick in close succession give "tick then write" or "write then tick", as the model's schedule orders
them (log 5). -/
def Obligations.TimerWriteRacesTheTick : Prop :=
  ∀ (s : State) (x : Reg) (rest : List Turn), s.run = .running → s.PC.toNat < 0x0FFF →
    (instrAtPC s = some (.ldDTVx x) → s.schedule = .delayTimer :: .cpu :: rest →
      ∃ t, Host.Core.run Sys2Proof.core 2 s = .next t ∧ t.DT = s.getV x) ∧
    (instrAtPC s = some (.ldDTVx x) → s.schedule = .cpu :: .delayTimer :: rest →
      ∃ t, Host.Core.run Sys2Proof.core 2 s = .next t ∧ t.DT.toNat = (s.getV x).toNat - 1) ∧
    (instrAtPC s = some (.ldSTVx x) → s.schedule = .soundTimer :: .cpu :: rest →
      ∃ t, Host.Core.run Sys2Proof.core 2 s = .next t ∧ t.ST = s.getV x) ∧
    (instrAtPC s = some (.ldSTVx x) → s.schedule = .cpu :: .soundTimer :: rest →
      ∃ t, Host.Core.run Sys2Proof.core 2 s = .next t ∧ t.ST.toNat = (s.getV x).toNat - 1)

/-! ### Display (spec 45_display.md) -/

/-- R220: CLS clears every pixel and writes no flag. -/
def Obligations.ClsClearsEveryPixel : Prop :=
  ∀ s : State, ∃ t, exec .cls s = .next t ∧ (∀ r c, t.pixel r c = false) ∧ t.PC.toNat = nextPC s ∧ SameBut [.Disp, .PC] s t

/-- R221 to R225: DRW flips exactly the pixels its sprite sets, MSB first from column Vx mod 64 and row Vy mod 32, with both
wrapping; VF is 1 iff a lit pixel was among them. A sprite that reaches past memory halts. -/
def Obligations.DrwFlipsTheSpritesPixels : Prop :=
  ∀ (x y : Reg) (n : Nibble) (s : State),
    (n.toNat = 0 ∨ s.I.toNat + n.toNat - 1 < 0x1000 →
      ∃ t, exec (.drw x y n) s = .next t ∧
        (∀ r c, t.pixel r c = true ↔
          ¬(s.pixel r c = true ↔ spriteSets ((s.getV x).toNat % 64) ((s.getV y).toNat % 32)
            ((List.range n.toNat).map fun k => s.mem.read (s.I.toNat + k)) r c)) ∧
        (t.getV VF = 1 ∨ t.getV VF = 0) ∧
        (t.getV VF = 1 ↔ ∃ r c, s.pixel r c = true ∧ spriteSets ((s.getV x).toNat % 64) ((s.getV y).toNat % 32)
            ((List.range n.toNat).map fun k => s.mem.read (s.I.toNat + k)) r c) ∧
        t.PC.toNat = nextPC s ∧ RegsSameBut [VF] s t ∧ SameBut [.Disp, .V, .PC] s t) ∧
    (0 < n.toNat → 0x1000 ≤ s.I.toNat + n.toNat - 1 →
      ∃ t, exec (.drw x y n) s = .next t ∧
        HaltedFrom s t .memRange (some (BitVec.ofNat 16 (0xD000 + 256 * x.val + 16 * y.val + n.toNat))))

/-- Drawing a sprite twice restores the display; the second drawing collides iff the first found an unlit pixel to light; from a
clear display that is iff a byte is nonzero; a clear display never collides; bytes of 0 change nothing and never collide. R226
says "iff a byte is nonzero" of every display, which R224 gives for a clear one only: a sprite over lit pixels alone turns them off,
and on again with no collision (log 13). -/
def Obligations.DrawingTwiceRestores : Prop :=
  ∀ (col row : Nat) (bytes : List Byte) (d : Display), bytes.length ≤ 15 →
    (drawSprite col row bytes (drawSprite col row bytes d).1).1 = d ∧
    ((drawSprite col row bytes (drawSprite col row bytes d).1).2 = true ↔
      ∃ r c, spriteSets col row bytes r c ∧ Display.pixel d r c = false) ∧
    ((drawSprite col row bytes (drawSprite col row bytes (Vector.replicate 32 0)).1).2 = true ↔ ∃ b ∈ bytes, b ≠ 0) ∧
    (drawSprite col row bytes (Vector.replicate 32 0)).2 = false ∧
    ((∀ b ∈ bytes, b = 0) → drawSprite col row bytes d = (d, false))

/-! ### Who writes and who reads what (spec 10_state.md) -/

/-- Memory, I, the stack, the timers, the pixels and the latch are written by the instructions the spec names for them and by no other
(R25 to R29, R34, R52); `held` by none. The clauses on the draws (log 4), the launch parameters (log 1), the turns, pace and rounds
(log 5) and the tones (log 6) are about the model's own fields. V, PC and `run` stand in OnlyDestinationsChange,
InstructionsAdvanceByOpcodeWidths and EveryHaltIsPrecise. -/
def Obligations.EachPartHasItsWriters : Prop :=
  ∀ (i : Instr) (s t : State), exec i s = .next t →
    (t.I ≠ s.I → ∃ x nnn, i = .ldI nnn ∨ i = .addIVx x ∨ i = .ldFVx x) ∧
    (t.stack ≠ s.stack → ∃ nnn, i = .call nnn ∨ i = .ret) ∧
    (t.DT ≠ s.DT → ∃ x, i = .ldDTVx x) ∧
    (t.ST ≠ s.ST → ∃ x, i = .ldSTVx x) ∧
    (∀ r c, t.pixel r c ≠ s.pixel r c → i = .cls ∨ ∃ x y n, i = .drw x y n) ∧
    (t.latch ≠ s.latch → ∃ x, i = .ldVxK x) ∧
    (∀ a, t.mem.read a ≠ s.mem.read a → ∃ x, i = .ldBVx x ∨ i = .ldMemVx x) ∧
    (t.draws ≠ s.draws → ∃ x kk, i = .rnd x kk) ∧
    t.held = s.held ∧ t.cfg = s.cfg ∧ t.schedule = s.schedule ∧ t.pace = s.pace ∧ t.rounds = s.rounds ∧ t.tones = s.tones

/-- R28: "No instruction reads ST": another value of ST changes nothing an instruction does, but for ST itself. -/
def Obligations.NoInstructionReadsTheSoundTimer : Prop :=
  ∀ (i : Instr) (s t : State) (b : Byte), exec i s = .next t →
    exec i { s with ST := b } = .next { t with ST := if ∃ x, i = .ldSTVx x then t.ST else b }

/-- Only LD Vx, K reads the latch, and only SKP and SKNP read `held` (R34, R39): for any other instruction other values of both
change nothing it does, but for those two fields themselves. -/
def Obligations.OnlyKeyInstructionsReadTheKeys : Prop :=
  ∀ (i : Instr) (s t : State) (latch : Option Key) (held : Vector Bool 16),
    (∀ x, i ≠ .ldVxK x ∧ i ≠ .skp x ∧ i ≠ .sknp x) → exec i s = .next t →
    exec i { s with latch := latch, held := held } = .next { t with latch := latch, held := held }

/-! ### Reset, load and the invariant (spec 70_reset_and_hazards.md) -/

/-- R280: what a launch leaves, for every launch parameter, its program loaded at 0x200; an image over 3584 bytes starts nothing. -/
def Obligations.LaunchSetsEveryPart : Prop :=
  (∀ (p : Launch) (s : State), p.wf = true → State.launch p = some s →
    (∀ k, k < 80 → s.mem.read (p.cfg.fontBase + k) = p.glyphs.getD k 0) ∧
    (∀ k, k < p.image.length → s.mem.read (0x200 + k) = p.image.getD k 0) ∧
    (∀ a, a < 0x1000 → inFont p.cfg a = false → a < 0x200 ∨ 0x200 + p.image.length ≤ a → s.mem.read a = p.initMem a) ∧
    (∀ r c, s.pixel r c = false) ∧ (∀ r, s.getV r = p.initV.get r) ∧ s.I = p.initI ∧ s.DT = p.initDT ∧ s.ST = p.initST ∧
    s.PC.toNat = 0x200 ∧ s.stack = [] ∧ (∀ k, s.isHeld k = false) ∧ s.latch = none ∧ s.run = .running ∧ s.cfg = p.cfg) ∧
  (∀ p : Launch, p.image.length ≤ 3584 → ∃ s, State.launch p = some s) ∧
  (∀ p : Launch, 3584 < p.image.length → State.launch p = none)

/-- State.reset is the launch with the spec's default parameters, 0 for what it leaves open (logs 2 and 3) and an empty image. -/
def Obligations.ResetIsTheDefaultLaunch : Prop := State.launch {} = some State.reset

/-- The invariant holds after reset (its clause on memory is the model's canonical form, log 3). -/
def Obligations.InvariantHoldsAtReset : Prop := Inv State.reset

/-- The invariant holds after every launch the spec describes. -/
def Obligations.InvariantHoldsAfterEveryLaunch : Prop :=
  ∀ (p : Launch) (s : State), p.wf = true → State.launch p = some s → Inv s

/-- Every step of every agent keeps the invariant: canonical memory (the model's form, log 3), PC at most 0x10FE (R24), return addresses at most 0x1000,
a finite stack within its depth. -/
def Obligations.EveryStepKeepsTheInvariant : Prop :=
  ∀ s t : State, Inv s → step s = .next t → Inv t

/-- A word placed where the machine fetches is what the next step runs (the model's stand-in for the program load, log 10). -/
def Obligations.PlacedWordRunsNext : Prop :=
  ∀ (s : State) (w : Word) (i : Instr), s.mem.wf = true → decode s.cfg.shiftYDontCare [highByte w, lowByte w] = .ok i →
    step (s.withFetchWord 16 w.toNat) = exec i (s.withFetchWord 16 w.toNat).popTurn
end

