-- ==== Sys2Proof/Laws/Decode.lean ====
section
/-! SUPPORT. Fields of assembled words, masks by nibble, and the scan. -/

namespace Sys2Proof

@[simp] theorem regOfNibble_nibbleOfReg (r : Reg) : regOfNibble (nibbleOfReg r) = r := rfl

@[simp] theorem nibbleOfReg_regOfNibble (n : Nibble) : nibbleOfReg (regOfNibble n) = n := rfl

theorem nibbleOfReg_toNat (r : Reg) : (nibbleOfReg r).toNat = r.val := rfl

/-- A word from its four nibbles, bit 15 down. -/
def nibbles (a b c d : Nibble) : Word := a ++ b ++ c ++ d

theorem nibbles_getLsbD (a b c d : Nibble) (i : Nat) :
    (nibbles a b c d).getLsbD i =
      if i < 4 then d.getLsbD i else if i < 8 then c.getLsbD (i - 4) else if i < 12 then b.getLsbD (i - 8)
      else a.getLsbD (i - 12) := by
  change (a ++ b ++ c ++ d : BitVec (4 + 4 + 4 + 4)).getLsbD i = _
  simp only [BitVec.getLsbD_append, Nat.sub_sub]
  repeat' split
  all_goals first | rfl | omega

theorem nibble_extract_getLsbD (w : Word) (k i : Nat) :
    (w.extractLsb' k 4 : Nibble).getLsbD i = (decide (i < 4) && w.getLsbD (k + i)) := by
  rw [BitVec.getLsbD_extractLsb']

/-- Every word is the assembly of its four nibbles. -/
theorem word_eq_nibbles (w : Word) :
    w = nibbles (w.extractLsb' 12 4) (w.extractLsb' 8 4) (w.extractLsb' 4 4) (w.extractLsb' 0 4) := by
  apply BitVec.eq_of_getLsbD_eq
  intro i hi
  simp only [nibbles_getLsbD, nibble_extract_getLsbD]
  split
  · simp [*]
  · split
    · rw [decide_eq_true (by omega : i - 4 < 4), Bool.true_and, show 4 + (i - 4) = i by omega]
    · split
      · rw [decide_eq_true (by omega : i - 8 < 4), Bool.true_and, show 8 + (i - 8) = i by omega]
      · rw [decide_eq_true (by omega : i - 12 < 4), Bool.true_and, show 12 + (i - 12) = i by omega]

/-- Masking works nibble by nibble. -/
theorem nibbles_and (a b c d a' b' c' d' : Nibble) :
    nibbles a b c d &&& nibbles a' b' c' d' = nibbles (a &&& a') (b &&& b') (c &&& c') (d &&& d') := by
  apply BitVec.eq_of_getLsbD_eq
  intro i _
  simp only [BitVec.getLsbD_and, nibbles_getLsbD]
  repeat' split
  all_goals rfl

theorem nibbles_extract (a b c d : Nibble) :
    (nibbles a b c d).extractLsb' 12 4 = a ∧ (nibbles a b c d).extractLsb' 8 4 = b ∧
    (nibbles a b c d).extractLsb' 4 4 = c ∧ (nibbles a b c d).extractLsb' 0 4 = d := by
  refine ⟨?_, ?_, ?_, ?_⟩ <;>
  · apply BitVec.eq_of_getLsbD_eq
    intro i hi
    rw [nibble_extract_getLsbD, nibbles_getLsbD, decide_eq_true hi, Bool.true_and]
    repeat' split
    all_goals first | omega | (congr 1; omega)

theorem nibbles_inj {a b c d a' b' c' d' : Nibble} :
    nibbles a b c d = nibbles a' b' c' d' ↔ a = a' ∧ b = b' ∧ c = c' ∧ d = d' := by
  constructor
  · intro h
    have e := nibbles_extract a b c d
    have e' := nibbles_extract a' b' c' d'
    rw [h] at e
    exact ⟨e.1.symm.trans e'.1, e.2.1.symm.trans e'.2.1, e.2.2.1.symm.trans e'.2.2.1, e.2.2.2.symm.trans e'.2.2.2⟩
  · rintro ⟨rfl, rfl, rfl, rfl⟩; rfl

theorem nibbles_toNat (a b c d : Nibble) :
    (nibbles a b c d).toNat = a.toNat * 4096 + b.toNat * 256 + c.toNat * 16 + d.toNat := by
  change (a ++ b ++ c ++ d : BitVec (4 + 4 + 4 + 4)).toNat = _
  simp only [BitVec.toNat_append]
  have := b.isLt; have := c.isLt; have := d.isLt
  rw [← Nat.shiftLeft_add_eq_or_of_lt (by omega), ← Nat.shiftLeft_add_eq_or_of_lt (by omega),
    ← Nat.shiftLeft_add_eq_or_of_lt (by omega)]
  simp only [Nat.shiftLeft_eq]; omega

/-! ### The formats of the encoder as nibbles -/

/-- The three nibbles of an address and the two of a byte, high first. -/
theorem formA_eq (top : Nibble) (nnn : Addr) :
    formA top nnn = nibbles top (nnn.extractLsb' 8 4) (nnn.extractLsb' 4 4) (nnn.extractLsb' 0 4) := by
  apply BitVec.eq_of_getLsbD_eq
  intro i hi
  change (top ++ nnn : BitVec (4 + 12)).getLsbD i = _
  simp only [BitVec.getLsbD_append, nibbles_getLsbD, BitVec.getLsbD_extractLsb']
  repeat' split
  all_goals first
    | omega
    | (rw [decide_eq_true (by omega), Bool.true_and]; congr 1; omega)
    | congr 1

theorem formXKK_eq (top : Nibble) (x : Reg) (kk : Byte) :
    formXKK top x kk = nibbles top (nibbleOfReg x) (kk.extractLsb' 4 4) (kk.extractLsb' 0 4) := by
  apply BitVec.eq_of_getLsbD_eq
  intro i hi
  change (top ++ nibbleOfReg x ++ kk : BitVec (4 + 4 + 8)).getLsbD i = _
  simp only [BitVec.getLsbD_append, nibbles_getLsbD, BitVec.getLsbD_extractLsb']
  repeat' split
  all_goals first
    | omega
    | (rw [decide_eq_true (by omega), Bool.true_and]; congr 1; omega)
    | congr 1

theorem formXYN_eq (top : Nibble) (x : Reg) (y n : Nibble) : formXYN top x y n = nibbles top (nibbleOfReg x) y n := rfl

/-! ### The masks of the table, and the fields of assembled words -/

theorem nibble_and_F : ∀ a : Nibble, a &&& 15#4 = a := by decide

theorem nibbles_and_F000 (a b c d : Nibble) : nibbles a b c d &&& 0xF000 = nibbles a 0 0 0 := by
  rw [show (0xF000 : Word) = nibbles 0xF 0 0 0 by decide, nibbles_and]
  simp [nibble_and_F]

theorem nibbles_and_F00F (a b c d : Nibble) : nibbles a b c d &&& 0xF00F = nibbles a 0 0 d := by
  rw [show (0xF00F : Word) = nibbles 0xF 0 0 0xF by decide, nibbles_and]
  simp [nibble_and_F]

theorem nibbles_and_F0FF (a b c d : Nibble) : nibbles a b c d &&& 0xF0FF = nibbles a 0 c d := by
  rw [show (0xF0FF : Word) = nibbles 0xF 0 0xF 0xF by decide, nibbles_and]
  simp [nibble_and_F]

theorem fieldX_nibbles (a b c d : Nibble) : fieldX (nibbles a b c d) = regOfNibble b := by
  rw [fieldX, (nibbles_extract a b c d).2.1]

theorem fieldY_nibbles (a b c d : Nibble) : fieldY (nibbles a b c d) = regOfNibble c := by
  rw [fieldY, (nibbles_extract a b c d).2.2.1]

theorem fieldYBits_nibbles (a b c d : Nibble) : fieldYBits (nibbles a b c d) = c := (nibbles_extract a b c d).2.2.1

theorem fieldN_nibbles (a b c d : Nibble) : fieldN (nibbles a b c d) = d := (nibbles_extract a b c d).2.2.2

theorem fieldNNN_formA (top : Nibble) (nnn : Addr) : fieldNNN (formA top nnn) = nnn := by
  apply BitVec.eq_of_getLsbD_eq
  intro i hi
  rw [fieldNNN, BitVec.getLsbD_extractLsb', decide_eq_true hi, Bool.true_and, Nat.zero_add]
  change (top ++ nnn : BitVec (4 + 12)).getLsbD i = _
  rw [BitVec.getLsbD_append, if_pos hi]

theorem fieldKK_formXKK (top : Nibble) (x : Reg) (kk : Byte) : fieldKK (formXKK top x kk) = kk := by
  apply BitVec.eq_of_getLsbD_eq
  intro i hi
  rw [fieldKK, BitVec.getLsbD_extractLsb', decide_eq_true hi, Bool.true_and, Nat.zero_add]
  change (top ++ nibbleOfReg x ++ kk : BitVec (4 + 4 + 8)).getLsbD i = _
  rw [BitVec.getLsbD_append, if_pos hi]

theorem fieldX_formXKK (top : Nibble) (x : Reg) (kk : Byte) : fieldX (formXKK top x kk) = x := by
  rw [formXKK_eq, fieldX_nibbles, regOfNibble_nibbleOfReg]

theorem formXKK_toNat (top : Nibble) (x : Reg) (kk : Byte) :
    (formXKK top x kk).toNat = top.toNat * 4096 + x.val * 256 + kk.toNat := by
  have := kk.isLt
  rw [formXKK_eq, nibbles_toNat, nibbleOfReg_toNat, BitVec.extractLsb'_toNat, BitVec.extractLsb'_toNat]
  simp only [Nat.shiftRight_eq_div_pow]; omega

theorem formA_toNat (top : Nibble) (nnn : Addr) : (formA top nnn).toNat = top.toNat * 4096 + nnn.toNat := by
  have := nnn.isLt
  rw [formA_eq, nibbles_toNat, BitVec.extractLsb'_toNat, BitVec.extractLsb'_toNat, BitVec.extractLsb'_toNat]
  simp only [Nat.shiftRight_eq_div_pow]; omega

theorem word_eq_ofNat {w : Word} {n : Nat} (h : w.toNat = n) : w = BitVec.ofNat 16 n := by
  rw [← h]; simp

/-! ### Bytes -/

theorem wordOfBytes_high_low (w : Word) : wordOfBytes (highByte w) (lowByte w) = w := by
  apply BitVec.eq_of_getLsbD_eq
  intro i hi
  change (highByte w ++ lowByte w : BitVec (8 + 8)).getLsbD i = _
  simp only [BitVec.getLsbD_append, highByte, lowByte, BitVec.getLsbD_extractLsb']
  split
  · simp [*]
  · rw [decide_eq_true (by omega), Bool.true_and, show 8 + (i - 8) = i by omega]

theorem highByte_wordOfBytes (hi lo : Byte) : highByte (wordOfBytes hi lo) = hi := by
  apply BitVec.eq_of_getLsbD_eq
  intro i h
  rw [highByte, BitVec.getLsbD_extractLsb', decide_eq_true h, Bool.true_and]
  change (hi ++ lo : BitVec (8 + 8)).getLsbD (8 + i) = _
  rw [BitVec.getLsbD_append, if_neg (by omega), Nat.add_sub_cancel_left]

theorem lowByte_wordOfBytes (hi lo : Byte) : lowByte (wordOfBytes hi lo) = lo := by
  apply BitVec.eq_of_getLsbD_eq
  intro i h
  rw [lowByte, BitVec.getLsbD_extractLsb', decide_eq_true h, Bool.true_and, Nat.zero_add]
  change (hi ++ lo : BitVec (8 + 8)).getLsbD i = _
  rw [BitVec.getLsbD_append, if_pos h]

theorem wordOfBytes_toNat (hi lo : Byte) : (wordOfBytes hi lo).toNat = 256 * hi.toNat + lo.toNat := by
  change (hi ++ lo : BitVec (8 + 8)).toNat = _
  rw [BitVec.toNat_append, ← Nat.shiftLeft_add_eq_or_of_lt lo.isLt, Nat.shiftLeft_eq]; omega

/-! ### The scan -/

theorem scan_cons (d : Descriptor) (ds : List Descriptor) (op : Word) :
    scan (d :: ds) op = if d.accepts op then some (d.build op) else scan ds op := rfl

/-- The decoder on two bytes answers an instruction exactly when their word matches a row that builds it. -/
theorem decode_ok (y : Bool) (hi lo : Byte) (i : Instr) :
    decode y [hi, lo] = .ok i ↔ decodeWord y (wordOfBytes hi lo) = some i := by
  rw [decode]; split <;> simp_all

end Sys2Proof
end

