-- ==== Sys2Proof/Laws/Memory.lean ====
section
/-! SUPPORT. The laws of memory: reading after writing, the canonical form and its preservation, equality, and the launch memory. -/

namespace Sys2Proof.Machine

theorem read_nil (a : Nat) : Memory.read [] a = resetByte a := rfl

theorem read_cons (k : Nat) (b : Byte) (m : Memory) (a : Nat) :
    Memory.read ((k, b) :: m) a = if a = k then b else m.read a := rfl

theorem wfFrom_cons (lo k : Nat) (b : Byte) (m : Memory) :
    Memory.wfFrom lo ((k, b) :: m) = true ↔ lo ≤ k ∧ k < 0x1000 ∧ b ≠ resetByte k ∧ m.wfFrom (k + 1) = true := by
  simp [Memory.wfFrom, and_assoc]

theorem wfFrom_mono {lo lo' : Nat} (h : lo' ≤ lo) : ∀ {m : Memory}, m.wfFrom lo = true → m.wfFrom lo' = true
  | [], _ => rfl
  | (_, _) :: _, hm => (wfFrom_cons ..).mpr ⟨h.trans ((wfFrom_cons ..).mp hm).1, ((wfFrom_cons ..).mp hm).2⟩

/-- Below the first address of a canonical memory every address is unlisted. -/
theorem read_below {lo a : Nat} (h : a < lo) : ∀ {m : Memory}, m.wfFrom lo = true → m.read a = resetByte a
  | [], _ => rfl
  | (k, b) :: m, hm => by
    rw [wfFrom_cons] at hm
    rw [read_cons, if_neg (by omega), read_below (lo := k + 1) (by omega) hm.2.2.2]

theorem read_write_from {lo : Nat} (a c : Nat) (v : Byte) :
    ∀ {m : Memory}, m.wfFrom lo = true → (m.write a v).read c = if c = a then v else m.read c
  | [], _ => by
    by_cases hv : v = resetByte a
    · simp only [Memory.write, if_pos hv, read_nil]; split <;> simp_all
    · simp only [Memory.write, if_neg hv, read_cons, read_nil]
  | (k, b) :: m, hm => by
    have hm' := (wfFrom_cons ..).mp hm
    simp only [Memory.write]
    split
    · have hk : Memory.read ((k, b) :: m) a = resetByte a :=
        read_below (lo := k) ‹_› ((wfFrom_cons ..).mpr ⟨Nat.le_refl k, hm'.2⟩)
      split
      · split <;> simp_all
      · rw [read_cons]
    · split
      · subst a
        have hk : Memory.read m k = resetByte k := read_below (Nat.lt_succ_self k) hm'.2.2.2
        split
        · split
          · simp_all
          · simp [read_cons, *]
        · rw [read_cons]; split <;> simp_all [read_cons]
      · rw [read_cons, read_cons, read_write_from a c v hm'.2.2.2]
        split <;> split <;> simp_all

/-- Reading after writing: the written byte at its address, what was there before at every other. -/
theorem read_write {m : Memory} (h : m.wf = true) (a c : Nat) (v : Byte) :
    (m.write a v).read c = if c = a then v else m.read c := read_write_from a c v h

theorem write_wfFrom {lo : Nat} (a : Nat) (v : Byte) (ha : a < 0x1000) (hlo : lo ≤ a) :
    ∀ {m : Memory}, m.wfFrom lo = true → (m.write a v).wfFrom lo = true
  | [], _ => by simp only [Memory.write]; split <;> simp_all [Memory.wfFrom]
  | (k, b) :: m, hm => by
    have hm' := (wfFrom_cons ..).mp hm
    simp only [Memory.write]
    split
    · split
      · exact hm
      · exact (wfFrom_cons ..).mpr ⟨hlo, ha, ‹_›, (wfFrom_cons ..).mpr ⟨by omega, hm'.2⟩⟩
    · split
      · split
        · exact wfFrom_mono (by omega) hm'.2.2.2
        · exact (wfFrom_cons ..).mpr ⟨hlo, ha, ‹_›, by subst a; exact hm'.2.2.2⟩
      · exact (wfFrom_cons ..).mpr ⟨hm'.1, hm'.2.1, hm'.2.2.1, write_wfFrom a v ha (by omega) hm'.2.2.2⟩

/-- A write within memory keeps the canonical form. -/
theorem write_wf {m : Memory} (h : m.wf = true) {a : Nat} (ha : a < 0x1000) (v : Byte) : (m.write a v).wf = true :=
  write_wfFrom a v ha (Nat.zero_le a) h

/-- A run of byte stores within memory keeps the canonical form. -/
theorem writeBytes_wf : ∀ {bytes : List Byte} {m : Memory} {a : Nat}, m.wf = true → a + bytes.length ≤ 0x1000 →
    (m.writeBytes a bytes).wf = true
  | [], _, _, h, _ => h
  | b :: bytes, m, a, h, hl => by
    simp only [List.length_cons] at hl
    exact writeBytes_wf (m := m.write a b) (write_wf h (by omega) b) (by omega)

theorem readBytes_length (m : Memory) (a n : Nat) : (m.readBytes a n).length = n := by simp [Memory.readBytes]

theorem readBytes_getD (m : Memory) (a n k : Nat) (h : k < n) : (m.readBytes a n).getD k 0 = m.read (a + k) := by
  simp [Memory.readBytes, List.getD_eq_getElem?_getD, h]

theorem filterMap_wfFrom (f : Nat → Byte) : ∀ n lo, lo + n ≤ 0x1000 →
    Memory.wfFrom lo ((List.range' lo n).filterMap fun a => if f a = resetByte a then none else some (a, f a)) = true
  | 0, _, _ => rfl
  | n + 1, lo, h => by
    rw [List.range'_succ, List.filterMap_cons]
    by_cases hf : f lo = resetByte lo
    · simpa [hf] using wfFrom_mono (Nat.le_succ lo) (filterMap_wfFrom f n (lo + 1) (by omega))
    · simp only [if_neg hf]
      exact (wfFrom_cons ..).mpr ⟨Nat.le_refl lo, by omega, hf, filterMap_wfFrom f n (lo + 1) (by omega)⟩

/-- A memory made of given bytes is in canonical form. -/
theorem ofBytes_wf (f : Nat → Byte) : (Memory.ofBytes f).wf = true := by
  have h : ∀ n, n ≤ 0x1000 → Memory.wfFrom 0
      ((List.range n).filterMap fun a => if f a = resetByte a then none else some (a, f a)) = true := fun n hn => by
    rw [List.range_eq_range']; exact filterMap_wfFrom f n 0 (by omega)
  unfold Memory.wf Memory.ofBytes
  exact h memSize (Nat.le_refl _)

theorem filterMap_read_above (f : Nat → Byte) (a : Nat) : ∀ n lo, a < lo →
    Memory.read ((List.range' lo n).filterMap fun a => if f a = resetByte a then none else some (a, f a)) a = resetByte a
  | 0, _, _ => rfl
  | n + 1, lo, h => by
    rw [List.range'_succ, List.filterMap_cons]
    have ih := filterMap_read_above f a n (lo + 1) (by omega)
    by_cases hf : f lo = resetByte lo
    · simpa only [if_pos hf] using ih
    · simpa only [if_neg hf, read_cons, if_neg (show a ≠ lo by omega)] using ih

theorem filterMap_read (f : Nat → Byte) (a : Nat) : ∀ n lo, lo ≤ a → a < lo + n →
    Memory.read ((List.range' lo n).filterMap fun a => if f a = resetByte a then none else some (a, f a)) a = f a
  | 0, _, h, h' => by omega
  | n + 1, lo, h, h' => by
    rw [List.range'_succ, List.filterMap_cons]
    by_cases hl : lo = a
    · subst lo
      by_cases hf : f a = resetByte a
      · simpa only [if_pos hf] using (filterMap_read_above f a n (a + 1) (Nat.lt_succ_self a)).trans hf.symm
      · simp only [if_neg hf, read_cons, if_true]
    · have ih := filterMap_read f a n (lo + 1) (by omega) (by omega)
      by_cases hf : f lo = resetByte lo
      · simpa only [if_pos hf] using ih
      · simpa only [if_neg hf, read_cons, if_neg (Ne.symm hl)] using ih

/-- A memory made of given bytes reads as them. -/
theorem read_ofBytes (f : Nat → Byte) {a : Nat} (h : a < 0x1000) : (Memory.ofBytes f).read a = f a := by
  have h' : ∀ n, a < n → Memory.read
      ((List.range n).filterMap fun a => if f a = resetByte a then none else some (a, f a)) a = f a := fun n hn => by
    rw [List.range_eq_range']; exact filterMap_read f a n 0 (Nat.zero_le a) (by omega)
  unfold Memory.ofBytes
  exact h' memSize h

end Sys2Proof.Machine
end

