-- ==== Sys2Proof/Laws/State.lean ====
section
/-! SUPPORT. One lemma per field for each named update of State: what the update leaves, and what it writes. -/

namespace Sys2Proof.Machine

variable (s : State)


/-! ### setMem -/

@[simp] theorem setMem_mem (m : Memory) : (s.setMem m).mem = m := rfl
@[simp] theorem setMem_V (m : Memory) : (s.setMem m).V = s.V := rfl
@[simp] theorem setMem_I (m : Memory) : (s.setMem m).I = s.I := rfl
@[simp] theorem setMem_PC (m : Memory) : (s.setMem m).PC = s.PC := rfl
@[simp] theorem setMem_stack (m : Memory) : (s.setMem m).stack = s.stack := rfl
@[simp] theorem setMem_DT (m : Memory) : (s.setMem m).DT = s.DT := rfl
@[simp] theorem setMem_ST (m : Memory) : (s.setMem m).ST = s.ST := rfl
@[simp] theorem setMem_Disp (m : Memory) : (s.setMem m).Disp = s.Disp := rfl
@[simp] theorem setMem_held (m : Memory) : (s.setMem m).held = s.held := rfl
@[simp] theorem setMem_latch (m : Memory) : (s.setMem m).latch = s.latch := rfl
@[simp] theorem setMem_run (m : Memory) : (s.setMem m).run = s.run := rfl
@[simp] theorem setMem_cfg (m : Memory) : (s.setMem m).cfg = s.cfg := rfl
@[simp] theorem setMem_draws (m : Memory) : (s.setMem m).draws = s.draws := rfl
@[simp] theorem setMem_schedule (m : Memory) : (s.setMem m).schedule = s.schedule := rfl
@[simp] theorem setMem_pace (m : Memory) : (s.setMem m).pace = s.pace := rfl
@[simp] theorem setMem_rounds (m : Memory) : (s.setMem m).rounds = s.rounds := rfl
@[simp] theorem setMem_tones (m : Memory) : (s.setMem m).tones = s.tones := rfl
@[simp] theorem setMem_getV (m : Memory) (i : Reg) : (s.setMem m).getV i = s.getV i := rfl
@[simp] theorem setMem_isHeld (m : Memory) (i : Key) : (s.setMem m).isHeld i = s.isHeld i := rfl
@[simp] theorem setMem_pixel (m : Memory) (row : Fin 32) (col : Fin 64) : (s.setMem m).pixel row col = s.pixel row col := rfl

/-! ### setI -/

@[simp] theorem setI_mem (a : Word) : (s.setI a).mem = s.mem := rfl
@[simp] theorem setI_V (a : Word) : (s.setI a).V = s.V := rfl
@[simp] theorem setI_I (a : Word) : (s.setI a).I = a := rfl
@[simp] theorem setI_PC (a : Word) : (s.setI a).PC = s.PC := rfl
@[simp] theorem setI_stack (a : Word) : (s.setI a).stack = s.stack := rfl
@[simp] theorem setI_DT (a : Word) : (s.setI a).DT = s.DT := rfl
@[simp] theorem setI_ST (a : Word) : (s.setI a).ST = s.ST := rfl
@[simp] theorem setI_Disp (a : Word) : (s.setI a).Disp = s.Disp := rfl
@[simp] theorem setI_held (a : Word) : (s.setI a).held = s.held := rfl
@[simp] theorem setI_latch (a : Word) : (s.setI a).latch = s.latch := rfl
@[simp] theorem setI_run (a : Word) : (s.setI a).run = s.run := rfl
@[simp] theorem setI_cfg (a : Word) : (s.setI a).cfg = s.cfg := rfl
@[simp] theorem setI_draws (a : Word) : (s.setI a).draws = s.draws := rfl
@[simp] theorem setI_schedule (a : Word) : (s.setI a).schedule = s.schedule := rfl
@[simp] theorem setI_pace (a : Word) : (s.setI a).pace = s.pace := rfl
@[simp] theorem setI_rounds (a : Word) : (s.setI a).rounds = s.rounds := rfl
@[simp] theorem setI_tones (a : Word) : (s.setI a).tones = s.tones := rfl
@[simp] theorem setI_getV (a : Word) (i : Reg) : (s.setI a).getV i = s.getV i := rfl
@[simp] theorem setI_isHeld (a : Word) (i : Key) : (s.setI a).isHeld i = s.isHeld i := rfl
@[simp] theorem setI_pixel (a : Word) (row : Fin 32) (col : Fin 64) : (s.setI a).pixel row col = s.pixel row col := rfl

/-! ### setPC -/

@[simp] theorem setPC_mem (a : Word) : (s.setPC a).mem = s.mem := rfl
@[simp] theorem setPC_V (a : Word) : (s.setPC a).V = s.V := rfl
@[simp] theorem setPC_I (a : Word) : (s.setPC a).I = s.I := rfl
@[simp] theorem setPC_PC (a : Word) : (s.setPC a).PC = a := rfl
@[simp] theorem setPC_stack (a : Word) : (s.setPC a).stack = s.stack := rfl
@[simp] theorem setPC_DT (a : Word) : (s.setPC a).DT = s.DT := rfl
@[simp] theorem setPC_ST (a : Word) : (s.setPC a).ST = s.ST := rfl
@[simp] theorem setPC_Disp (a : Word) : (s.setPC a).Disp = s.Disp := rfl
@[simp] theorem setPC_held (a : Word) : (s.setPC a).held = s.held := rfl
@[simp] theorem setPC_latch (a : Word) : (s.setPC a).latch = s.latch := rfl
@[simp] theorem setPC_run (a : Word) : (s.setPC a).run = s.run := rfl
@[simp] theorem setPC_cfg (a : Word) : (s.setPC a).cfg = s.cfg := rfl
@[simp] theorem setPC_draws (a : Word) : (s.setPC a).draws = s.draws := rfl
@[simp] theorem setPC_schedule (a : Word) : (s.setPC a).schedule = s.schedule := rfl
@[simp] theorem setPC_pace (a : Word) : (s.setPC a).pace = s.pace := rfl
@[simp] theorem setPC_rounds (a : Word) : (s.setPC a).rounds = s.rounds := rfl
@[simp] theorem setPC_tones (a : Word) : (s.setPC a).tones = s.tones := rfl
@[simp] theorem setPC_getV (a : Word) (i : Reg) : (s.setPC a).getV i = s.getV i := rfl
@[simp] theorem setPC_isHeld (a : Word) (i : Key) : (s.setPC a).isHeld i = s.isHeld i := rfl
@[simp] theorem setPC_pixel (a : Word) (row : Fin 32) (col : Fin 64) : (s.setPC a).pixel row col = s.pixel row col := rfl

/-! ### setStack -/

@[simp] theorem setStack_mem (l : List Word) : (s.setStack l).mem = s.mem := rfl
@[simp] theorem setStack_V (l : List Word) : (s.setStack l).V = s.V := rfl
@[simp] theorem setStack_I (l : List Word) : (s.setStack l).I = s.I := rfl
@[simp] theorem setStack_PC (l : List Word) : (s.setStack l).PC = s.PC := rfl
@[simp] theorem setStack_stack (l : List Word) : (s.setStack l).stack = l := rfl
@[simp] theorem setStack_DT (l : List Word) : (s.setStack l).DT = s.DT := rfl
@[simp] theorem setStack_ST (l : List Word) : (s.setStack l).ST = s.ST := rfl
@[simp] theorem setStack_Disp (l : List Word) : (s.setStack l).Disp = s.Disp := rfl
@[simp] theorem setStack_held (l : List Word) : (s.setStack l).held = s.held := rfl
@[simp] theorem setStack_latch (l : List Word) : (s.setStack l).latch = s.latch := rfl
@[simp] theorem setStack_run (l : List Word) : (s.setStack l).run = s.run := rfl
@[simp] theorem setStack_cfg (l : List Word) : (s.setStack l).cfg = s.cfg := rfl
@[simp] theorem setStack_draws (l : List Word) : (s.setStack l).draws = s.draws := rfl
@[simp] theorem setStack_schedule (l : List Word) : (s.setStack l).schedule = s.schedule := rfl
@[simp] theorem setStack_pace (l : List Word) : (s.setStack l).pace = s.pace := rfl
@[simp] theorem setStack_rounds (l : List Word) : (s.setStack l).rounds = s.rounds := rfl
@[simp] theorem setStack_tones (l : List Word) : (s.setStack l).tones = s.tones := rfl
@[simp] theorem setStack_getV (l : List Word) (i : Reg) : (s.setStack l).getV i = s.getV i := rfl
@[simp] theorem setStack_isHeld (l : List Word) (i : Key) : (s.setStack l).isHeld i = s.isHeld i := rfl
@[simp] theorem setStack_pixel (l : List Word) (row : Fin 32) (col : Fin 64) : (s.setStack l).pixel row col = s.pixel row col := rfl

/-! ### setDT -/

@[simp] theorem setDT_mem (b : Byte) : (s.setDT b).mem = s.mem := rfl
@[simp] theorem setDT_V (b : Byte) : (s.setDT b).V = s.V := rfl
@[simp] theorem setDT_I (b : Byte) : (s.setDT b).I = s.I := rfl
@[simp] theorem setDT_PC (b : Byte) : (s.setDT b).PC = s.PC := rfl
@[simp] theorem setDT_stack (b : Byte) : (s.setDT b).stack = s.stack := rfl
@[simp] theorem setDT_DT (b : Byte) : (s.setDT b).DT = b := rfl
@[simp] theorem setDT_ST (b : Byte) : (s.setDT b).ST = s.ST := rfl
@[simp] theorem setDT_Disp (b : Byte) : (s.setDT b).Disp = s.Disp := rfl
@[simp] theorem setDT_held (b : Byte) : (s.setDT b).held = s.held := rfl
@[simp] theorem setDT_latch (b : Byte) : (s.setDT b).latch = s.latch := rfl
@[simp] theorem setDT_run (b : Byte) : (s.setDT b).run = s.run := rfl
@[simp] theorem setDT_cfg (b : Byte) : (s.setDT b).cfg = s.cfg := rfl
@[simp] theorem setDT_draws (b : Byte) : (s.setDT b).draws = s.draws := rfl
@[simp] theorem setDT_schedule (b : Byte) : (s.setDT b).schedule = s.schedule := rfl
@[simp] theorem setDT_pace (b : Byte) : (s.setDT b).pace = s.pace := rfl
@[simp] theorem setDT_rounds (b : Byte) : (s.setDT b).rounds = s.rounds := rfl
@[simp] theorem setDT_tones (b : Byte) : (s.setDT b).tones = s.tones := rfl
@[simp] theorem setDT_getV (b : Byte) (i : Reg) : (s.setDT b).getV i = s.getV i := rfl
@[simp] theorem setDT_isHeld (b : Byte) (i : Key) : (s.setDT b).isHeld i = s.isHeld i := rfl
@[simp] theorem setDT_pixel (b : Byte) (row : Fin 32) (col : Fin 64) : (s.setDT b).pixel row col = s.pixel row col := rfl

/-! ### setST -/

@[simp] theorem setST_mem (b : Byte) : (s.setST b).mem = s.mem := rfl
@[simp] theorem setST_V (b : Byte) : (s.setST b).V = s.V := rfl
@[simp] theorem setST_I (b : Byte) : (s.setST b).I = s.I := rfl
@[simp] theorem setST_PC (b : Byte) : (s.setST b).PC = s.PC := rfl
@[simp] theorem setST_stack (b : Byte) : (s.setST b).stack = s.stack := rfl
@[simp] theorem setST_DT (b : Byte) : (s.setST b).DT = s.DT := rfl
@[simp] theorem setST_ST (b : Byte) : (s.setST b).ST = b := rfl
@[simp] theorem setST_Disp (b : Byte) : (s.setST b).Disp = s.Disp := rfl
@[simp] theorem setST_held (b : Byte) : (s.setST b).held = s.held := rfl
@[simp] theorem setST_latch (b : Byte) : (s.setST b).latch = s.latch := rfl
@[simp] theorem setST_run (b : Byte) : (s.setST b).run = s.run := rfl
@[simp] theorem setST_cfg (b : Byte) : (s.setST b).cfg = s.cfg := rfl
@[simp] theorem setST_draws (b : Byte) : (s.setST b).draws = s.draws := rfl
@[simp] theorem setST_schedule (b : Byte) : (s.setST b).schedule = s.schedule := rfl
@[simp] theorem setST_pace (b : Byte) : (s.setST b).pace = s.pace := rfl
@[simp] theorem setST_rounds (b : Byte) : (s.setST b).rounds = s.rounds := rfl
@[simp] theorem setST_tones (b : Byte) : (s.setST b).tones = s.tones := rfl
@[simp] theorem setST_getV (b : Byte) (i : Reg) : (s.setST b).getV i = s.getV i := rfl
@[simp] theorem setST_isHeld (b : Byte) (i : Key) : (s.setST b).isHeld i = s.isHeld i := rfl
@[simp] theorem setST_pixel (b : Byte) (row : Fin 32) (col : Fin 64) : (s.setST b).pixel row col = s.pixel row col := rfl

/-! ### setDisp -/

@[simp] theorem setDisp_mem (d : Display) : (s.setDisp d).mem = s.mem := rfl
@[simp] theorem setDisp_V (d : Display) : (s.setDisp d).V = s.V := rfl
@[simp] theorem setDisp_I (d : Display) : (s.setDisp d).I = s.I := rfl
@[simp] theorem setDisp_PC (d : Display) : (s.setDisp d).PC = s.PC := rfl
@[simp] theorem setDisp_stack (d : Display) : (s.setDisp d).stack = s.stack := rfl
@[simp] theorem setDisp_DT (d : Display) : (s.setDisp d).DT = s.DT := rfl
@[simp] theorem setDisp_ST (d : Display) : (s.setDisp d).ST = s.ST := rfl
@[simp] theorem setDisp_Disp (d : Display) : (s.setDisp d).Disp = d := rfl
@[simp] theorem setDisp_held (d : Display) : (s.setDisp d).held = s.held := rfl
@[simp] theorem setDisp_latch (d : Display) : (s.setDisp d).latch = s.latch := rfl
@[simp] theorem setDisp_run (d : Display) : (s.setDisp d).run = s.run := rfl
@[simp] theorem setDisp_cfg (d : Display) : (s.setDisp d).cfg = s.cfg := rfl
@[simp] theorem setDisp_draws (d : Display) : (s.setDisp d).draws = s.draws := rfl
@[simp] theorem setDisp_schedule (d : Display) : (s.setDisp d).schedule = s.schedule := rfl
@[simp] theorem setDisp_pace (d : Display) : (s.setDisp d).pace = s.pace := rfl
@[simp] theorem setDisp_rounds (d : Display) : (s.setDisp d).rounds = s.rounds := rfl
@[simp] theorem setDisp_tones (d : Display) : (s.setDisp d).tones = s.tones := rfl
@[simp] theorem setDisp_getV (d : Display) (i : Reg) : (s.setDisp d).getV i = s.getV i := rfl
@[simp] theorem setDisp_isHeld (d : Display) (i : Key) : (s.setDisp d).isHeld i = s.isHeld i := rfl
@[simp] theorem setDisp_pixel (d : Display) (row : Fin 32) (col : Fin 64) : (s.setDisp d).pixel row col = Display.pixel d row col := rfl

/-! ### setLatch -/

@[simp] theorem setLatch_mem (k : Option Key) : (s.setLatch k).mem = s.mem := rfl
@[simp] theorem setLatch_V (k : Option Key) : (s.setLatch k).V = s.V := rfl
@[simp] theorem setLatch_I (k : Option Key) : (s.setLatch k).I = s.I := rfl
@[simp] theorem setLatch_PC (k : Option Key) : (s.setLatch k).PC = s.PC := rfl
@[simp] theorem setLatch_stack (k : Option Key) : (s.setLatch k).stack = s.stack := rfl
@[simp] theorem setLatch_DT (k : Option Key) : (s.setLatch k).DT = s.DT := rfl
@[simp] theorem setLatch_ST (k : Option Key) : (s.setLatch k).ST = s.ST := rfl
@[simp] theorem setLatch_Disp (k : Option Key) : (s.setLatch k).Disp = s.Disp := rfl
@[simp] theorem setLatch_held (k : Option Key) : (s.setLatch k).held = s.held := rfl
@[simp] theorem setLatch_latch (k : Option Key) : (s.setLatch k).latch = k := rfl
@[simp] theorem setLatch_run (k : Option Key) : (s.setLatch k).run = s.run := rfl
@[simp] theorem setLatch_cfg (k : Option Key) : (s.setLatch k).cfg = s.cfg := rfl
@[simp] theorem setLatch_draws (k : Option Key) : (s.setLatch k).draws = s.draws := rfl
@[simp] theorem setLatch_schedule (k : Option Key) : (s.setLatch k).schedule = s.schedule := rfl
@[simp] theorem setLatch_pace (k : Option Key) : (s.setLatch k).pace = s.pace := rfl
@[simp] theorem setLatch_rounds (k : Option Key) : (s.setLatch k).rounds = s.rounds := rfl
@[simp] theorem setLatch_tones (k : Option Key) : (s.setLatch k).tones = s.tones := rfl
@[simp] theorem setLatch_getV (k : Option Key) (i : Reg) : (s.setLatch k).getV i = s.getV i := rfl
@[simp] theorem setLatch_isHeld (k : Option Key) (i : Key) : (s.setLatch k).isHeld i = s.isHeld i := rfl
@[simp] theorem setLatch_pixel (k : Option Key) (row : Fin 32) (col : Fin 64) : (s.setLatch k).pixel row col = s.pixel row col := rfl

/-! ### countDraw -/

@[simp] theorem countDraw_mem : (s.countDraw).mem = s.mem := rfl
@[simp] theorem countDraw_V : (s.countDraw).V = s.V := rfl
@[simp] theorem countDraw_I : (s.countDraw).I = s.I := rfl
@[simp] theorem countDraw_PC : (s.countDraw).PC = s.PC := rfl
@[simp] theorem countDraw_stack : (s.countDraw).stack = s.stack := rfl
@[simp] theorem countDraw_DT : (s.countDraw).DT = s.DT := rfl
@[simp] theorem countDraw_ST : (s.countDraw).ST = s.ST := rfl
@[simp] theorem countDraw_Disp : (s.countDraw).Disp = s.Disp := rfl
@[simp] theorem countDraw_held : (s.countDraw).held = s.held := rfl
@[simp] theorem countDraw_latch : (s.countDraw).latch = s.latch := rfl
@[simp] theorem countDraw_run : (s.countDraw).run = s.run := rfl
@[simp] theorem countDraw_cfg : (s.countDraw).cfg = s.cfg := rfl
@[simp] theorem countDraw_draws : (s.countDraw).draws = s.draws + 1 := rfl
@[simp] theorem countDraw_schedule : (s.countDraw).schedule = s.schedule := rfl
@[simp] theorem countDraw_pace : (s.countDraw).pace = s.pace := rfl
@[simp] theorem countDraw_rounds : (s.countDraw).rounds = s.rounds := rfl
@[simp] theorem countDraw_tones : (s.countDraw).tones = s.tones := rfl
@[simp] theorem countDraw_getV (i : Reg) : (s.countDraw).getV i = s.getV i := rfl
@[simp] theorem countDraw_isHeld (i : Key) : (s.countDraw).isHeld i = s.isHeld i := rfl
@[simp] theorem countDraw_pixel (row : Fin 32) (col : Fin 64) : (s.countDraw).pixel row col = s.pixel row col := rfl

/-! ### emitTone -/

@[simp] theorem emitTone_mem : (s.emitTone).mem = s.mem := rfl
@[simp] theorem emitTone_V : (s.emitTone).V = s.V := rfl
@[simp] theorem emitTone_I : (s.emitTone).I = s.I := rfl
@[simp] theorem emitTone_PC : (s.emitTone).PC = s.PC := rfl
@[simp] theorem emitTone_stack : (s.emitTone).stack = s.stack := rfl
@[simp] theorem emitTone_DT : (s.emitTone).DT = s.DT := rfl
@[simp] theorem emitTone_ST : (s.emitTone).ST = s.ST := rfl
@[simp] theorem emitTone_Disp : (s.emitTone).Disp = s.Disp := rfl
@[simp] theorem emitTone_held : (s.emitTone).held = s.held := rfl
@[simp] theorem emitTone_latch : (s.emitTone).latch = s.latch := rfl
@[simp] theorem emitTone_run : (s.emitTone).run = s.run := rfl
@[simp] theorem emitTone_cfg : (s.emitTone).cfg = s.cfg := rfl
@[simp] theorem emitTone_draws : (s.emitTone).draws = s.draws := rfl
@[simp] theorem emitTone_schedule : (s.emitTone).schedule = s.schedule := rfl
@[simp] theorem emitTone_pace : (s.emitTone).pace = s.pace := rfl
@[simp] theorem emitTone_rounds : (s.emitTone).rounds = s.rounds := rfl
@[simp] theorem emitTone_tones : (s.emitTone).tones = s.tones + 1 := rfl
@[simp] theorem emitTone_getV (i : Reg) : (s.emitTone).getV i = s.getV i := rfl
@[simp] theorem emitTone_isHeld (i : Key) : (s.emitTone).isHeld i = s.isHeld i := rfl
@[simp] theorem emitTone_pixel (row : Fin 32) (col : Fin 64) : (s.emitTone).pixel row col = s.pixel row col := rfl

/-! ### setV -/

@[simp] theorem setV_mem (r : Reg) (b : Byte) : (s.setV r b).mem = s.mem := rfl
@[simp] theorem setV_I (r : Reg) (b : Byte) : (s.setV r b).I = s.I := rfl
@[simp] theorem setV_PC (r : Reg) (b : Byte) : (s.setV r b).PC = s.PC := rfl
@[simp] theorem setV_stack (r : Reg) (b : Byte) : (s.setV r b).stack = s.stack := rfl
@[simp] theorem setV_DT (r : Reg) (b : Byte) : (s.setV r b).DT = s.DT := rfl
@[simp] theorem setV_ST (r : Reg) (b : Byte) : (s.setV r b).ST = s.ST := rfl
@[simp] theorem setV_Disp (r : Reg) (b : Byte) : (s.setV r b).Disp = s.Disp := rfl
@[simp] theorem setV_held (r : Reg) (b : Byte) : (s.setV r b).held = s.held := rfl
@[simp] theorem setV_latch (r : Reg) (b : Byte) : (s.setV r b).latch = s.latch := rfl
@[simp] theorem setV_run (r : Reg) (b : Byte) : (s.setV r b).run = s.run := rfl
@[simp] theorem setV_cfg (r : Reg) (b : Byte) : (s.setV r b).cfg = s.cfg := rfl
@[simp] theorem setV_draws (r : Reg) (b : Byte) : (s.setV r b).draws = s.draws := rfl
@[simp] theorem setV_schedule (r : Reg) (b : Byte) : (s.setV r b).schedule = s.schedule := rfl
@[simp] theorem setV_pace (r : Reg) (b : Byte) : (s.setV r b).pace = s.pace := rfl
@[simp] theorem setV_rounds (r : Reg) (b : Byte) : (s.setV r b).rounds = s.rounds := rfl
@[simp] theorem setV_tones (r : Reg) (b : Byte) : (s.setV r b).tones = s.tones := rfl
@[simp] theorem setV_isHeld (r : Reg) (b : Byte) (i : Key) : (s.setV r b).isHeld i = s.isHeld i := rfl
@[simp] theorem setV_pixel (r : Reg) (b : Byte) (row : Fin 32) (col : Fin 64) : (s.setV r b).pixel row col = s.pixel row col := rfl

/-! ### setResultFlag -/

@[simp] theorem setResultFlag_mem (x : Reg) (a b : Byte) : (s.setResultFlag x a b).mem = s.mem := rfl
@[simp] theorem setResultFlag_I (x : Reg) (a b : Byte) : (s.setResultFlag x a b).I = s.I := rfl
@[simp] theorem setResultFlag_PC (x : Reg) (a b : Byte) : (s.setResultFlag x a b).PC = s.PC := rfl
@[simp] theorem setResultFlag_stack (x : Reg) (a b : Byte) : (s.setResultFlag x a b).stack = s.stack := rfl
@[simp] theorem setResultFlag_DT (x : Reg) (a b : Byte) : (s.setResultFlag x a b).DT = s.DT := rfl
@[simp] theorem setResultFlag_ST (x : Reg) (a b : Byte) : (s.setResultFlag x a b).ST = s.ST := rfl
@[simp] theorem setResultFlag_Disp (x : Reg) (a b : Byte) : (s.setResultFlag x a b).Disp = s.Disp := rfl
@[simp] theorem setResultFlag_held (x : Reg) (a b : Byte) : (s.setResultFlag x a b).held = s.held := rfl
@[simp] theorem setResultFlag_latch (x : Reg) (a b : Byte) : (s.setResultFlag x a b).latch = s.latch := rfl
@[simp] theorem setResultFlag_run (x : Reg) (a b : Byte) : (s.setResultFlag x a b).run = s.run := rfl
@[simp] theorem setResultFlag_cfg (x : Reg) (a b : Byte) : (s.setResultFlag x a b).cfg = s.cfg := rfl
@[simp] theorem setResultFlag_draws (x : Reg) (a b : Byte) : (s.setResultFlag x a b).draws = s.draws := rfl
@[simp] theorem setResultFlag_schedule (x : Reg) (a b : Byte) : (s.setResultFlag x a b).schedule = s.schedule := rfl
@[simp] theorem setResultFlag_pace (x : Reg) (a b : Byte) : (s.setResultFlag x a b).pace = s.pace := rfl
@[simp] theorem setResultFlag_rounds (x : Reg) (a b : Byte) : (s.setResultFlag x a b).rounds = s.rounds := rfl
@[simp] theorem setResultFlag_tones (x : Reg) (a b : Byte) : (s.setResultFlag x a b).tones = s.tones := rfl
@[simp] theorem setResultFlag_isHeld (x : Reg) (a b : Byte) (i : Key) : (s.setResultFlag x a b).isHeld i = s.isHeld i := rfl
@[simp] theorem setResultFlag_pixel (x : Reg) (a b : Byte) (row : Fin 32) (col : Fin 64) : (s.setResultFlag x a b).pixel row col = s.pixel row col := rfl

/-! ### loadRegBlock -/

@[simp] theorem loadRegBlock_mem (x : Reg) (a : Nat) : (s.loadRegBlock x a).mem = s.mem := rfl
@[simp] theorem loadRegBlock_I (x : Reg) (a : Nat) : (s.loadRegBlock x a).I = s.I := rfl
@[simp] theorem loadRegBlock_PC (x : Reg) (a : Nat) : (s.loadRegBlock x a).PC = s.PC := rfl
@[simp] theorem loadRegBlock_stack (x : Reg) (a : Nat) : (s.loadRegBlock x a).stack = s.stack := rfl
@[simp] theorem loadRegBlock_DT (x : Reg) (a : Nat) : (s.loadRegBlock x a).DT = s.DT := rfl
@[simp] theorem loadRegBlock_ST (x : Reg) (a : Nat) : (s.loadRegBlock x a).ST = s.ST := rfl
@[simp] theorem loadRegBlock_Disp (x : Reg) (a : Nat) : (s.loadRegBlock x a).Disp = s.Disp := rfl
@[simp] theorem loadRegBlock_held (x : Reg) (a : Nat) : (s.loadRegBlock x a).held = s.held := rfl
@[simp] theorem loadRegBlock_latch (x : Reg) (a : Nat) : (s.loadRegBlock x a).latch = s.latch := rfl
@[simp] theorem loadRegBlock_run (x : Reg) (a : Nat) : (s.loadRegBlock x a).run = s.run := rfl
@[simp] theorem loadRegBlock_cfg (x : Reg) (a : Nat) : (s.loadRegBlock x a).cfg = s.cfg := rfl
@[simp] theorem loadRegBlock_draws (x : Reg) (a : Nat) : (s.loadRegBlock x a).draws = s.draws := rfl
@[simp] theorem loadRegBlock_schedule (x : Reg) (a : Nat) : (s.loadRegBlock x a).schedule = s.schedule := rfl
@[simp] theorem loadRegBlock_pace (x : Reg) (a : Nat) : (s.loadRegBlock x a).pace = s.pace := rfl
@[simp] theorem loadRegBlock_rounds (x : Reg) (a : Nat) : (s.loadRegBlock x a).rounds = s.rounds := rfl
@[simp] theorem loadRegBlock_tones (x : Reg) (a : Nat) : (s.loadRegBlock x a).tones = s.tones := rfl
@[simp] theorem loadRegBlock_isHeld (x : Reg) (a : Nat) (i : Key) : (s.loadRegBlock x a).isHeld i = s.isHeld i := rfl
@[simp] theorem loadRegBlock_pixel (x : Reg) (a : Nat) (row : Fin 32) (col : Fin 64) : (s.loadRegBlock x a).pixel row col = s.pixel row col := rfl

/-! ### advance -/

@[simp] theorem advance_mem (n : Nat) : (s.advance n).mem = s.mem := rfl
@[simp] theorem advance_V (n : Nat) : (s.advance n).V = s.V := rfl
@[simp] theorem advance_I (n : Nat) : (s.advance n).I = s.I := rfl
@[simp] theorem advance_PC (n : Nat) : (s.advance n).PC = s.PC + BitVec.ofNat 16 (2 * n) := rfl
@[simp] theorem advance_stack (n : Nat) : (s.advance n).stack = s.stack := rfl
@[simp] theorem advance_DT (n : Nat) : (s.advance n).DT = s.DT := rfl
@[simp] theorem advance_ST (n : Nat) : (s.advance n).ST = s.ST := rfl
@[simp] theorem advance_Disp (n : Nat) : (s.advance n).Disp = s.Disp := rfl
@[simp] theorem advance_held (n : Nat) : (s.advance n).held = s.held := rfl
@[simp] theorem advance_latch (n : Nat) : (s.advance n).latch = s.latch := rfl
@[simp] theorem advance_run (n : Nat) : (s.advance n).run = s.run := rfl
@[simp] theorem advance_cfg (n : Nat) : (s.advance n).cfg = s.cfg := rfl
@[simp] theorem advance_draws (n : Nat) : (s.advance n).draws = s.draws := rfl
@[simp] theorem advance_schedule (n : Nat) : (s.advance n).schedule = s.schedule := rfl
@[simp] theorem advance_pace (n : Nat) : (s.advance n).pace = s.pace := rfl
@[simp] theorem advance_rounds (n : Nat) : (s.advance n).rounds = s.rounds := rfl
@[simp] theorem advance_tones (n : Nat) : (s.advance n).tones = s.tones := rfl
@[simp] theorem advance_getV (n : Nat) (i : Reg) : (s.advance n).getV i = s.getV i := rfl
@[simp] theorem advance_isHeld (n : Nat) (i : Key) : (s.advance n).isHeld i = s.isHeld i := rfl
@[simp] theorem advance_pixel (n : Nat) (row : Fin 32) (col : Fin 64) : (s.advance n).pixel row col = s.pixel row col := rfl

/-! ### setHeld -/

@[simp] theorem setHeld_mem (k : Key) (b : Bool) : (s.setHeld k b).mem = s.mem := rfl
@[simp] theorem setHeld_V (k : Key) (b : Bool) : (s.setHeld k b).V = s.V := rfl
@[simp] theorem setHeld_I (k : Key) (b : Bool) : (s.setHeld k b).I = s.I := rfl
@[simp] theorem setHeld_PC (k : Key) (b : Bool) : (s.setHeld k b).PC = s.PC := rfl
@[simp] theorem setHeld_stack (k : Key) (b : Bool) : (s.setHeld k b).stack = s.stack := rfl
@[simp] theorem setHeld_DT (k : Key) (b : Bool) : (s.setHeld k b).DT = s.DT := rfl
@[simp] theorem setHeld_ST (k : Key) (b : Bool) : (s.setHeld k b).ST = s.ST := rfl
@[simp] theorem setHeld_Disp (k : Key) (b : Bool) : (s.setHeld k b).Disp = s.Disp := rfl
@[simp] theorem setHeld_latch (k : Key) (b : Bool) : (s.setHeld k b).latch = s.latch := rfl
@[simp] theorem setHeld_run (k : Key) (b : Bool) : (s.setHeld k b).run = s.run := rfl
@[simp] theorem setHeld_cfg (k : Key) (b : Bool) : (s.setHeld k b).cfg = s.cfg := rfl
@[simp] theorem setHeld_draws (k : Key) (b : Bool) : (s.setHeld k b).draws = s.draws := rfl
@[simp] theorem setHeld_schedule (k : Key) (b : Bool) : (s.setHeld k b).schedule = s.schedule := rfl
@[simp] theorem setHeld_pace (k : Key) (b : Bool) : (s.setHeld k b).pace = s.pace := rfl
@[simp] theorem setHeld_rounds (k : Key) (b : Bool) : (s.setHeld k b).rounds = s.rounds := rfl
@[simp] theorem setHeld_tones (k : Key) (b : Bool) : (s.setHeld k b).tones = s.tones := rfl
@[simp] theorem setHeld_getV (k : Key) (b : Bool) (i : Reg) : (s.setHeld k b).getV i = s.getV i := rfl
@[simp] theorem setHeld_pixel (k : Key) (b : Bool) (row : Fin 32) (col : Fin 64) : (s.setHeld k b).pixel row col = s.pixel row col := rfl

/-! ### halt -/

@[simp] theorem halt_mem (q : HaltReason) (o : Option Word) : (s.halt q o).mem = s.mem := rfl
@[simp] theorem halt_V (q : HaltReason) (o : Option Word) : (s.halt q o).V = s.V := rfl
@[simp] theorem halt_I (q : HaltReason) (o : Option Word) : (s.halt q o).I = s.I := rfl
@[simp] theorem halt_PC (q : HaltReason) (o : Option Word) : (s.halt q o).PC = s.PC := rfl
@[simp] theorem halt_stack (q : HaltReason) (o : Option Word) : (s.halt q o).stack = s.stack := rfl
@[simp] theorem halt_DT (q : HaltReason) (o : Option Word) : (s.halt q o).DT = s.DT := rfl
@[simp] theorem halt_ST (q : HaltReason) (o : Option Word) : (s.halt q o).ST = s.ST := rfl
@[simp] theorem halt_Disp (q : HaltReason) (o : Option Word) : (s.halt q o).Disp = s.Disp := rfl
@[simp] theorem halt_held (q : HaltReason) (o : Option Word) : (s.halt q o).held = s.held := rfl
@[simp] theorem halt_latch (q : HaltReason) (o : Option Word) : (s.halt q o).latch = s.latch := rfl
@[simp] theorem halt_run (q : HaltReason) (o : Option Word) : (s.halt q o).run = .halted q s.PC o := rfl
@[simp] theorem halt_cfg (q : HaltReason) (o : Option Word) : (s.halt q o).cfg = s.cfg := rfl
@[simp] theorem halt_draws (q : HaltReason) (o : Option Word) : (s.halt q o).draws = s.draws := rfl
@[simp] theorem halt_schedule (q : HaltReason) (o : Option Word) : (s.halt q o).schedule = s.schedule := rfl
@[simp] theorem halt_pace (q : HaltReason) (o : Option Word) : (s.halt q o).pace = s.pace := rfl
@[simp] theorem halt_rounds (q : HaltReason) (o : Option Word) : (s.halt q o).rounds = s.rounds := rfl
@[simp] theorem halt_tones (q : HaltReason) (o : Option Word) : (s.halt q o).tones = s.tones := rfl
@[simp] theorem halt_getV (q : HaltReason) (o : Option Word) (i : Reg) : (s.halt q o).getV i = s.getV i := rfl
@[simp] theorem halt_isHeld (q : HaltReason) (o : Option Word) (i : Key) : (s.halt q o).isHeld i = s.isHeld i := rfl
@[simp] theorem halt_pixel (q : HaltReason) (o : Option Word) (row : Fin 32) (col : Fin 64) : (s.halt q o).pixel row col = s.pixel row col := rfl

/-! ### popTurn -/

@[simp] theorem popTurn_mem : (s.popTurn).mem = s.mem := rfl
@[simp] theorem popTurn_V : (s.popTurn).V = s.V := rfl
@[simp] theorem popTurn_I : (s.popTurn).I = s.I := rfl
@[simp] theorem popTurn_PC : (s.popTurn).PC = s.PC := rfl
@[simp] theorem popTurn_stack : (s.popTurn).stack = s.stack := rfl
@[simp] theorem popTurn_DT : (s.popTurn).DT = s.DT := rfl
@[simp] theorem popTurn_ST : (s.popTurn).ST = s.ST := rfl
@[simp] theorem popTurn_Disp : (s.popTurn).Disp = s.Disp := rfl
@[simp] theorem popTurn_held : (s.popTurn).held = s.held := rfl
@[simp] theorem popTurn_latch : (s.popTurn).latch = s.latch := rfl
@[simp] theorem popTurn_run : (s.popTurn).run = s.run := rfl
@[simp] theorem popTurn_cfg : (s.popTurn).cfg = s.cfg := rfl
@[simp] theorem popTurn_draws : (s.popTurn).draws = s.draws := rfl
@[simp] theorem popTurn_schedule : (s.popTurn).schedule = s.turns.tail := rfl
@[simp] theorem popTurn_pace : (s.popTurn).pace = s.pace := rfl
@[simp] theorem popTurn_rounds : (s.popTurn).rounds = if s.schedule.isEmpty then s.rounds + 1 else s.rounds := rfl
@[simp] theorem popTurn_tones : (s.popTurn).tones = s.tones := rfl
@[simp] theorem popTurn_getV (i : Reg) : (s.popTurn).getV i = s.getV i := rfl
@[simp] theorem popTurn_isHeld (i : Key) : (s.popTurn).isHeld i = s.isHeld i := rfl
@[simp] theorem popTurn_pixel (row : Fin 32) (col : Fin 64) : (s.popTurn).pixel row col = s.pixel row col := rfl

/-! ### What the updates write -/

theorem getV_setV (r i : Reg) (b : Byte) : (s.setV r b).getV i = if i = r then b else s.getV i := by
  simp only [State.getV, State.setV, Vector.get_eq_getElem, Vector.getElem_set, Fin.ext_iff]
  split <;> split <;> simp_all

@[simp] theorem getV_setV_self (r : Reg) (b : Byte) : (s.setV r b).getV r = b := by simp [getV_setV]

theorem getV_setV_ne (r i : Reg) (b : Byte) (h : i ≠ r) : (s.setV r b).getV i = s.getV i := by simp [getV_setV, h]

/-- The flag wins over the result when both go to VF (spec 10_state.md R23). -/
@[simp] theorem getV_setResultFlag_VF (x : Reg) (a b : Byte) : (s.setResultFlag x a b).getV VF = b := by
  simp [State.setResultFlag]

theorem getV_setResultFlag_self (x : Reg) (a b : Byte) (h : x ≠ VF) : (s.setResultFlag x a b).getV x = a := by
  simp [State.setResultFlag, getV_setV, h]

theorem getV_setResultFlag_ne (x i : Reg) (a b : Byte) (h : i ≠ x) (h' : i ≠ VF) :
    (s.setResultFlag x a b).getV i = s.getV i := by
  simp [State.setResultFlag, getV_setV, h, h']

theorem getV_loadRegBlock (x i : Reg) (a : Nat) :
    (s.loadRegBlock x a).getV i = if i ≤ x then s.mem.read (a + i.val) else s.getV i := by
  simp [State.getV, State.loadRegBlock, Vector.get_eq_getElem]

theorem isHeld_setHeld (k j : Key) (b : Bool) : (s.setHeld k b).isHeld j = if j = k then b else s.isHeld j := by
  simp only [State.isHeld, State.setHeld, Vector.get_eq_getElem, Vector.getElem_set, Fin.ext_iff]
  split <;> split <;> simp_all

theorem regBlock_length (x : Reg) : (s.regBlock x).length = x.val + 1 := by
  have := x.isLt
  simp [State.regBlock]

theorem regBlock_getD (x r : Reg) (h : r ≤ x) : (s.regBlock x).getD r.val 0 = s.getV r := by
  have hx := r.isLt
  have : r.val < x.val + 1 := Nat.lt_succ_of_le h
  simp [State.regBlock, State.getV, List.getD_eq_getElem?_getD, this, Vector.get_eq_getElem]

/-! ### Turns -/

theorem turns_of_cons {u : Turn} {rest : List Turn} (h : s.schedule = u :: rest) : s.turns = u :: rest := by
  rw [State.turns, h]

theorem turns_of_nil (h : s.schedule = []) : s.turns = s.nextRound := by
  rw [State.turns, h]

/-- A round gives each of the CPU and the two timers a turn (spec 60_exceptions.md R248). -/
theorem mem_fairRound {u : Turn} (hu : u ∈ [Turn.cpu, .delayTimer, .soundTimer]) (l : List Turn) : u ∈ fairRound l := by
  by_cases h : u ∈ l
  · exact List.mem_append_left _ h
  · exact List.mem_append_right _ (List.mem_filter.mpr ⟨hu, by simpa using h⟩)

theorem mem_nextRound {u : Turn} (hu : u ∈ [Turn.cpu, .delayTimer, .soundTimer]) : u ∈ s.nextRound := mem_fairRound hu _

/-- There is always a next turn. -/
theorem turns_ne_nil : s.turns ≠ [] := by
  cases h : s.schedule with
  | nil => rw [turns_of_nil s h]; exact List.ne_nil_of_mem (mem_nextRound s (u := .cpu) (by simp))
  | cons u rest => rw [turns_of_cons s h]; exact List.cons_ne_nil _ _

theorem cpuTurn_iff : s.cpuTurn = true ↔ s.turns.head? = some .cpu := by
  simp [State.cpuTurn]

/-- Taking a scheduled turn leaves the rest of the schedule and begins no round. -/
theorem popTurn_of_cons {u : Turn} {rest : List Turn} (h : s.schedule = u :: rest) : s.popTurn = { s with schedule := rest } := by
  simp [State.popTurn, turns_of_cons s h, h]

end Sys2Proof.Machine
end

