-- ==== Sys2Proof/Laws/Ops.lean ====
section
/-! SUPPORT. One lemma for each shared operation that says all it can do: the checks, halting, stores, operand assembly. -/

namespace Sys2Proof.Machine

theorem inMemory_iff (a n : Nat) : inMemory a n = true ↔ n = 0 ∨ a + n ≤ 0x1000 := by
  simp only [inMemory, memSize, List.all_eq_true, List.mem_range, decide_eq_true_eq]
  refine ⟨fun h => ?_, fun h k hk => by omega⟩
  rcases Nat.eq_zero_or_pos n with rfl | hn
  · exact .inl rfl
  · have := h (n - 1) (by omega); omega

theorem inFont_iff (c : Config) (a : Nat) : inFont c a = true ↔ c.fontBase ≤ a ∧ a < c.fontBase + 80 := by
  simp [inFont]

theorem touchesFont_iff (c : Config) (a n : Nat) :
    touchesFont c a n = true ↔ ∃ k, k < n ∧ inFont c (a + k) = true := by
  simp [touchesFont]

/-- A read is let through exactly when every byte lies in memory (spec 20_memory.md R53). -/
theorem loadCheck_none (a n : Nat) : loadCheck a n = none ↔ n = 0 ∨ a + n ≤ 0x1000 := by
  rw [← inMemory_iff, loadCheck]; split <;> simp_all

theorem loadCheck_some (a n : Nat) (q : HaltReason) :
    loadCheck a n = some q ↔ q = .memRange ∧ n ≠ 0 ∧ 0x1000 < a + n := by
  have h := inMemory_iff a n
  rw [loadCheck]
  split
  · simp_all; omega
  · have : ¬(n = 0 ∨ a + n ≤ 0x1000) := fun h' => by simp_all
    simp only [Option.some.injEq, eq_comm (a := HaltReason.memRange)]
    exact ⟨fun hq => ⟨hq, by omega, by omega⟩, fun hq => hq.1⟩

/-- A write is let through exactly when every byte lies in memory and none in the digit region (spec 20_memory.md R53, R55). -/
theorem storeCheck_none (c : Config) (a n : Nat) :
    storeCheck c a n = none ↔ (n = 0 ∨ a + n ≤ 0x1000) ∧ ∀ k, k < n → inFont c (a + k) = false := by
  rw [← inMemory_iff, storeCheck]
  have := touchesFont_iff c a n
  split
  · split <;> simp_all
  · simp_all

/-- What a refused write halts with: the range first, then the digit region (spec 60_exceptions.md R242). -/
theorem storeCheck_some (c : Config) (a n : Nat) (q : HaltReason) :
    storeCheck c a n = some q ↔
      (q = .memRange ∧ n ≠ 0 ∧ 0x1000 < a + n) ∨
      (q = .fontWrite ∧ (n = 0 ∨ a + n ≤ 0x1000) ∧ ∃ k, k < n ∧ inFont c (a + k) = true) := by
  rw [← touchesFont_iff, storeCheck]
  have h := inMemory_iff a n
  by_cases hi : inMemory a n = true
  · have h0 := h.mp hi
    have hn : ¬(n ≠ 0 ∧ 0x1000 < a + n) := by omega
    rw [if_pos hi]
    by_cases ht : touchesFont c a n = true
    · rw [if_pos ht]
      constructor
      · intro hq; cases hq; exact .inr ⟨rfl, h0, ht⟩
      · rintro (⟨-, hq⟩ | ⟨rfl, -⟩)
        · exact absurd hq hn
        · rfl
    · rw [if_neg ht]
      constructor
      · intro hq; cases hq
      · rintro (⟨-, hq⟩ | ⟨-, -, hq⟩)
        · exact absurd hq hn
        · exact absurd hq ht
  · have h0 : ¬(n = 0 ∨ a + n ≤ 0x1000) := fun h' => hi (h.mpr h')
    rw [if_neg hi]
    constructor
    · intro hq; cases hq; exact .inl ⟨rfl, by omega, by omega⟩
    · rintro (⟨rfl, -⟩ | ⟨-, hq, -⟩)
      · rfl
      · exact absurd hq h0

theorem keyOfByte_some (b : Byte) (k : Key) : keyOfByte b = some k ↔ b.toNat = k.val := by
  unfold keyOfByte
  have := k.isLt
  split
  · simp [Fin.ext_iff]
  · simp; omega

theorem keyOfByte_none (b : Byte) : keyOfByte b = none ↔ 0xF < b.toNat := by
  unfold keyOfByte
  split
  · simp; omega
  · simp; omega

theorem digitOfByte_some (b : Byte) (d : Nat) : digitOfByte b = some d ↔ b.toNat ≤ 0xF ∧ b.toNat = d := by
  unfold digitOfByte; split <;> simp_all

theorem digitOfByte_none (b : Byte) : digitOfByte b = none ↔ 0xF < b.toNat := by
  unfold digitOfByte; split <;> simp_all

theorem zextAddr_toNat (nnn : Addr) : (zextAddr nnn).toNat = nnn.toNat := by
  have := nnn.isLt
  simp only [zextAddr, BitVec.toNat_setWidth]; omega

theorem zextByte_toNat (b : Byte) : (zextByte b).toNat = b.toNat := by
  have := b.isLt
  simp only [zextByte, BitVec.toNat_setWidth]; omega

theorem byteOfKey_toNat (k : Key) : (byteOfKey k).toNat = k.val := by
  have := k.isLt
  simp only [byteOfKey, BitVec.toNat_ofNat]; omega

theorem advance_PC_toNat (s : State) (n : Nat) : (s.advance n).PC.toNat = (s.PC.toNat + 2 * n) % 2 ^ 16 := by
  simp [BitVec.toNat_add]

/-- An instruction's halt is a next state that changes `run` alone (spec 60_exceptions.md R243). -/
theorem haltAt_eq (i : Instr) (q : HaltReason) (s : State) : haltAt i q s = .next (s.halt q (some (encode i))) := rfl

end Sys2Proof.Machine
end

