-- ==== Sys2Proof/Laws/Display.lean ====
section
/-! SUPPORT. The sprite engine as pixels: which columns a byte sets, and all that drawing a sprite does. -/

namespace Sys2Proof.Machine

theorem getLsbD_twoPow64 (m c : Nat) (hm : m < 64) : (BitVec.twoPow 64 m).getLsbD c = decide (c = m) := by
  rw [BitVec.getLsbD_twoPow]
  simp only [hm, decide_true, Bool.true_and]
  exact decide_eq_decide.mpr eq_comm

theorem spriteBits_getLsbD (col0 : Nat) (b : Byte) (c : Nat) : ∀ n,
    (spriteBits col0 b n).getLsbD c = true ↔ ∃ j, j < n ∧ c = (col0 + j) % 64 ∧ b.getLsbD (7 - j) = true
  | 0 => by simp [spriteBits]
  | n + 1 => by
    rw [spriteBits, BitVec.getLsbD_or, Bool.or_eq_true, spriteBits_getLsbD col0 b c n]
    have hb : (if b.getLsbD (7 - n) then BitVec.twoPow 64 ((col0 + n) % 64) else 0).getLsbD c = true ↔
        c = (col0 + n) % 64 ∧ b.getLsbD (7 - n) = true := by
      split
      · rw [getLsbD_twoPow64 _ _ (Nat.mod_lt _ (by decide))]; simp_all
      · simp_all
    rw [hb]
    constructor
    · rintro (⟨j, hj, h⟩ | h)
      · exact ⟨j, by omega, h⟩
      · exact ⟨n, by omega, h⟩
    · rintro ⟨j, hj, h⟩
      rcases Nat.lt_or_ge j n with hn | hn
      · exact .inl ⟨j, hn, h⟩
      · obtain rfl : j = n := by omega
        exact .inr h

/-- The row mask of a sprite byte sets exactly the columns of spec 45_display.md R222. -/
theorem spritePattern_getLsbD (col0 : Nat) (b : Byte) (c : Fin 64) :
    (spritePattern col0 b).getLsbD c.val = true ↔ spriteCovers col0 b c := spriteBits_getLsbD col0 b c.val 8

/-- A byte of 0 sets no column. -/
theorem spritePattern_zero (col0 : Nat) : spritePattern col0 0 = 0 := by
  simp [spritePattern, spriteBits]

/-- A nonzero byte sets some column: every set bit lands on the row, by wraparound. -/
theorem spriteCovers_of_ne_zero (col0 : Nat) (b : Byte) (h : b ≠ 0) : ∃ c, spriteCovers col0 b c := by
  obtain ⟨i, hi, hb⟩ : ∃ i, i < 8 ∧ b.getLsbD i = true := by
    by_contra hn
    exact h (BitVec.eq_of_getLsbD_eq fun i hi => by simpa using fun hb => hn ⟨i, hi, hb⟩)
  exact ⟨⟨(col0 + (7 - i)) % 64, Nat.mod_lt _ (by decide)⟩, 7 - i, by omega, rfl, by rwa [show 7 - (7 - i) = i by omega]⟩

theorem drawSprite_nil (col row : Nat) (d : Display) : drawSprite col row [] d = (d, false) := rfl

theorem drawSprite_cons (col row : Nat) (b : Byte) (bytes : List Byte) (d : Display) :
    drawSprite col row (b :: bytes) d =
      ((drawSprite col (row + 1) bytes (d.set (rowIndex row).val (d.get (rowIndex row) ^^^ spritePattern col b))).1,
        decide (d.get (rowIndex row) &&& spritePattern col b ≠ 0) ||
          (drawSprite col (row + 1) bytes (d.set (rowIndex row).val (d.get (rowIndex row) ^^^ spritePattern col b))).2) := rfl

/-- A display with one row set reads as that row there and as before elsewhere. -/
theorem get_set_row (d : Display) (r r' : Fin 32) (v : BitVec 64) :
    (d.set r.val v).get r' = if r' = r then v else d.get r' := by
  simp only [Vector.get_eq_getElem, Vector.getElem_set, Fin.ext_iff]
  split <;> split <;> simp_all

/-- Two displays with the same pixels are the same display. -/
theorem display_ext {d e : Display} (h : ∀ r c, Display.pixel d r c = Display.pixel e r c) : d = e := by
  apply Vector.ext
  intro i hi
  apply BitVec.eq_of_getLsbD_eq
  intro c hc
  exact h ⟨i, hi⟩ ⟨c, hc⟩

theorem pixel_clear (r : Fin 32) (c : Fin 64) : Display.pixel (Vector.replicate 32 0) r c = false := by
  simp [Display.pixel, Vector.get_eq_getElem]

theorem spriteSets_nil (col row : Nat) (r : Fin 32) (c : Fin 64) : ¬ spriteSets col row [] r c := by
  rintro ⟨k, hk, -⟩; simp at hk

/-- The pixels of a sprite are those of its first byte and those of the rest, one row on. -/
theorem spriteSets_cons (col row : Nat) (b : Byte) (bytes : List Byte) (r : Fin 32) (c : Fin 64) :
    spriteSets col row (b :: bytes) r c ↔
      (r = rowIndex row ∧ spriteCovers col b c) ∨ spriteSets col (row + 1) bytes r c := by
  constructor
  · rintro ⟨_ | k, hk, hr, hc⟩
    · exact .inl ⟨Fin.ext (by simpa [rowIndex] using hr), by simpa using hc⟩
    · exact .inr ⟨k, by simpa using hk, by rw [hr]; congr 1; omega, by simpa using hc⟩
  · rintro (⟨rfl, hc⟩ | ⟨k, hk, hr, hc⟩)
    · exact ⟨0, by simp, by simp [rowIndex], by simpa using hc⟩
    · exact ⟨k + 1, by simpa using hk, by rw [hr]; congr 1; omega, by simpa using hc⟩

/-- The rest of a sprite of at most 32 rows does not come back to the first row. -/
theorem not_spriteSets_first (col row : Nat) (bytes : List Byte) (c : Fin 64) (h : bytes.length < 32) :
    ¬ spriteSets col (row + 1) bytes (rowIndex row) c := by
  rintro ⟨k, hk, hr, -⟩
  simp only [rowIndex] at hr
  omega

theorem row_and_ne_zero (v : BitVec 64) (col : Nat) (b : Byte) :
    v &&& spritePattern col b ≠ 0 ↔ ∃ c : Fin 64, v.getLsbD c.val = true ∧ spriteCovers col b c := by
  constructor
  · intro h
    by_contra hn
    apply h
    apply BitVec.eq_of_getLsbD_eq
    intro i hi
    rw [BitVec.getLsbD_and]
    have := fun hv => hn ⟨⟨i, hi⟩, hv⟩
    have hp := spritePattern_getLsbD col b ⟨i, hi⟩
    simp only at hp
    cases h1 : v.getLsbD i <;> cases h2 : (spritePattern col b).getLsbD i <;> simp_all
  · rintro ⟨c, hv, hc⟩ h
    have hb := congrArg (BitVec.getLsbD · c.val) h
    rw [BitVec.getLsbD_and, hv, (spritePattern_getLsbD col b c).mpr hc] at hb
    simp at hb

/-- All that drawing a sprite does: it flips the pixels the sprite sets, and it collides when one of them was lit. -/
theorem drawSprite_spec (col : Nat) : ∀ (bytes : List Byte) (row : Nat) (d : Display), bytes.length ≤ 32 →
    (∀ r c, Display.pixel (drawSprite col row bytes d).1 r c = true ↔
      ¬(Display.pixel d r c = true ↔ spriteSets col row bytes r c)) ∧
    ((drawSprite col row bytes d).2 = true ↔ ∃ r c, Display.pixel d r c = true ∧ spriteSets col row bytes r c)
  | [], row, d, _ => by simp [drawSprite_nil, spriteSets_nil]
  | b :: bytes, row, d, h => by
    have hl : bytes.length < 32 := by simpa using h
    have ih := drawSprite_spec col bytes (row + 1)
      (d.set (rowIndex row).val (d.get (rowIndex row) ^^^ spritePattern col b)) (by omega)
    have hset : ∀ r c, Display.pixel (d.set (rowIndex row).val (d.get (rowIndex row) ^^^ spritePattern col b)) r c =
        if r = rowIndex row then ((d.get r).getLsbD c.val ^^ (spritePattern col b).getLsbD c.val) else Display.pixel d r c := by
      intro r c
      simp only [Display.pixel, get_set_row]
      split
      · rename_i hr; subst hr; rw [BitVec.getLsbD_xor]
      · rfl
    rw [drawSprite_cons]
    constructor
    · intro r c
      rw [ih.1 r c, hset, spriteSets_cons]
      by_cases hr : r = rowIndex row
      · subst hr
        have hn := not_spriteSets_first col row bytes c hl
        have hp := spritePattern_getLsbD col b c
        simp only [if_true, Display.pixel]
        cases h1 : (d.get (rowIndex row)).getLsbD c.val <;> cases h2 : (spritePattern col b).getLsbD c.val <;> simp_all
      · simp [hr]
    · rw [Bool.or_eq_true, decide_eq_true_eq, row_and_ne_zero, ih.2]
      constructor
      · rintro (⟨c, hv, hc⟩ | ⟨r, c, hv, hc⟩)
        · exact ⟨rowIndex row, c, hv, (spriteSets_cons ..).mpr (.inl ⟨rfl, hc⟩)⟩
        · have hr : r ≠ rowIndex row := fun hr => not_spriteSets_first col row bytes c hl (hr ▸ hc)
          rw [hset, if_neg hr] at hv
          exact ⟨r, c, hv, (spriteSets_cons ..).mpr (.inr hc)⟩
      · rintro ⟨r, c, hv, hc⟩
        rcases (spriteSets_cons ..).mp hc with ⟨rfl, hc'⟩ | hc'
        · exact .inl ⟨c, hv, hc'⟩
        · have hr : r ≠ rowIndex row := fun hr => not_spriteSets_first col row bytes c hl (hr ▸ hc')
          exact .inr ⟨r, c, by rwa [hset, if_neg hr], hc'⟩

end Sys2Proof.Machine
end

