-- ==== Sys2Proof/Laws/Exec.lean ====
section
/-! SUPPORT. What a step can do: one inversion lemma for the store, the tick and the step. -/

namespace Sys2Proof.Machine

/-- A store at I either stores all its bytes and goes on, or halts for the range or for the digit region and writes nothing. -/
theorem storeAtI_cases (i : Instr) (bytes : List Byte) (s t : State) (h : storeAtI i bytes s = .next t) :
    (storeCheck s.cfg s.I.toNat bytes.length = none ∧
      t = (s.setMem (s.mem.writeBytes s.I.toNat bytes)).advance 1) ∨
    ∃ q, storeCheck s.cfg s.I.toNat bytes.length = some q ∧ t = s.halt q (some (encode i)) := by
  unfold storeAtI at h
  split at h
  · exact .inr ⟨_, ‹_›, by cases h; rfl⟩
  · exact .inl ⟨‹_›, by cases h; rfl⟩

theorem fetchBytes_none (s : State) : fetchBytes s = none ↔ 0x0FFF ≤ s.PC.toNat := by
  unfold fetchBytes; split <;> simp_all

theorem fetchBytes_some (s : State) (h : s.PC.toNat < 0x0FFF) :
    fetchBytes s = some [s.mem.read s.PC.toNat, s.mem.read (s.PC.toNat + 1)] := by
  rw [fetchBytes, if_neg (by omega)]; rfl

/-- A tick out of range halts. -/
theorem tick_out_of_range (s : State) (h : 0x0FFF ≤ s.PC.toNat) : tick s = .next (s.halt .memRange none) := by
  rw [tick, (fetchBytes_none s).mpr h]

/-- A tick in range runs the instruction at PC, or halts when there is none. -/
theorem tick_in_range (s : State) (h : s.PC.toNat < 0x0FFF) :
    tick s = match instrAtPC s with
      | some i => exec i s
      | none => .next (s.halt .unhandled (some (fetchWord s))) := by
  rw [tick, fetchBytes_some s h]
  simp only [decode, instrAtPC, fetchWord]
  cases decodeWord s.cfg.shiftYDontCare (wordOfBytes (s.mem.read s.PC.toNat) (s.mem.read (s.PC.toNat + 1))) <;> rfl

/-- All that a tick can do. -/
theorem tick_cases (s t : State) (h : tick s = .next t) :
    (0x0FFF ≤ s.PC.toNat ∧ t = s.halt .memRange none) ∨
    (s.PC.toNat < 0x0FFF ∧ instrAtPC s = none ∧ t = s.halt .unhandled (some (fetchWord s))) ∨
    (s.PC.toNat < 0x0FFF ∧ ∃ i, instrAtPC s = some i ∧ exec i s = .next t) := by
  rcases Nat.lt_or_ge s.PC.toNat 0x0FFF with hp | hp
  · rw [tick_in_range s hp] at h
    cases hi : instrAtPC s with
    | none => rw [hi] at h; exact .inr (.inl ⟨hp, rfl, by cases h; rfl⟩)
    | some i => rw [hi] at h; exact .inr (.inr ⟨hp, i, rfl, h⟩)
  · rw [tick_out_of_range s hp] at h; exact .inl ⟨hp, by cases h; rfl⟩

/-- A running machine takes the step of the agent whose turn is next, with that turn taken. -/
theorem step_turn (s : State) (u : Turn) (hr : s.run = .running) (hu : s.turns.head? = some u) : step s = takeTurn u s.popTurn := by
  unfold step transition nextTurn
  rw [hr]
  cases ht : s.turns with
  | nil => rw [ht] at hu; cases hu
  | cons v rest => rw [ht] at hu; cases hu; rfl

/-- A running machine whose next turn is the CPU's ticks at the state with that turn taken. -/
theorem step_cpu (s : State) (hr : s.run = .running) (hc : s.cpuTurn = true) : step s = tick s.popTurn :=
  step_turn s .cpu hr ((cpuTurn_iff s).mp hc)

/-- A running machine whose schedule has another agent's turn first takes that agent's step. -/
theorem step_agent (s : State) (u : Turn) (rest : List Turn) (hr : s.run = .running) (hs : s.schedule = u :: rest) :
    step s = takeTurn u s.popTurn := step_turn s u hr (by rw [turns_of_cons s hs]; rfl)

theorem step_halted (s : State) (q : HaltReason) (a : Word) (o : Option Word) (h : s.run = .halted q a o) :
    step s = .fault (.halted q a o) := by
  unfold step transition
  rw [h]

/-- All that a step can do: it is one agent's step of a running machine. -/
theorem step_cases (s t : State) (h : step s = .next t) :
    s.run = .running ∧
    ((s.cpuTurn = true ∧ tick s.popTurn = .next t) ∨
      (s.turns.head? = some .delayTimer ∧ t = delayTick s.popTurn) ∨
      (s.turns.head? = some .soundTimer ∧ t = soundTick s.popTurn) ∨
      (∃ k, s.turns.head? = some (.keyPress k) ∧ t = keyPress k s.popTurn) ∨
      (∃ k, s.turns.head? = some (.keyRelease k) ∧ t = keyRelease k s.popTurn) ∨
      (s.turns.head? = some .close ∧ t = closeRequest s.popTurn)) := by
  cases hr : s.run with
  | halted q a o => rw [step_halted s q a o hr] at h; cases h
  | running =>
    refine ⟨rfl, ?_⟩
    cases ht : s.turns with
    | nil => exact absurd ht (turns_ne_nil s)
    | cons u rest =>
      rw [step_turn s u hr (by rw [ht]; rfl)] at h
      cases u with
      | cpu => exact .inl ⟨(cpuTurn_iff s).mpr (by rw [ht]; rfl), h⟩
      | delayTimer => cases h; simp
      | soundTimer => cases h; simp
      | keyPress k => cases h; simp
      | keyRelease k => cases h; simp
      | close => cases h; simp

/-- A halt keeps all but `run` and reports the PC (spec 60_exceptions.md R243). -/
theorem haltedFrom_halt (s : State) (q : HaltReason) (o : Option Word) : HaltedFrom s (s.halt q o) q o :=
  ⟨rfl, by constructor <;> intro h <;> first | exact absurd (by decide) h | (intros; rfl)⟩

/-- What two steps both leave unchanged is unchanged by the two together. -/
theorem SameBut.trans {parts : List Part} {s t u : State} (h : SameBut parts s t) (h' : SameBut parts t u) :
    SameBut parts s u where
  mem hm a := (h'.mem hm a).trans (h.mem hm a)
  V hm r := (h'.V hm r).trans (h.V hm r)
  I hm := (h'.I hm).trans (h.I hm)
  PC hm := (h'.PC hm).trans (h.PC hm)
  stack hm := (h'.stack hm).trans (h.stack hm)
  DT hm := (h'.DT hm).trans (h.DT hm)
  ST hm := (h'.ST hm).trans (h.ST hm)
  Disp hm r c := (h'.Disp hm r c).trans (h.Disp hm r c)
  held hm k := (h'.held hm k).trans (h.held hm k)
  latch hm := (h'.latch hm).trans (h.latch hm)
  run hm := (h'.run hm).trans (h.run hm)
  cfg hm := (h'.cfg hm).trans (h.cfg hm)
  draws hm := (h'.draws hm).trans (h.draws hm)
  schedule hm := (h'.schedule hm).trans (h.schedule hm)
  pace hm := (h'.pace hm).trans (h.pace hm)
  rounds hm := (h'.rounds hm).trans (h.rounds hm)
  tones hm := (h'.tones hm).trans (h.tones hm)

/-- All that an instruction does to `run`: it keeps it, or halts with its own opcode and changes nothing else. -/
theorem exec_run_cases (i : Instr) (s t : State) (h : exec i s = .next t) :
    t.run = s.run ∨ ∃ q, t = s.halt q (some (encode i)) := by
  cases i
  all_goals simp only [exec, execCls, execRet, execJp, execCall, execSeByte, execSneByte, execSeReg, execSneReg, execJpV0,
    execSkp, execSknp, execLdByte, execAddByte, execLdReg, execOrReg, execAndReg, execXorReg, execAddReg, execSubReg,
    execShr, execSubnReg, execShl, execRnd, execLdI, execAddIVx, execLdFVx, execLdBVx, execLdMemVx, execLdVxMem,
    execLdVxDT, execLdVxK, execLdDTVx, execLdSTVx, execDrw, storeAtI, haltAt, Host.Outcome.next.injEq] at h
  all_goals first
    | (subst h; exact .inl (by simp))
    | (split at h <;> cases h <;> first | exact .inr ⟨_, rfl⟩ | exact .inl (by simp))

/-- All that an instruction does to memory: nothing, or a checked run of byte stores from I up. -/
theorem exec_mem_cases (i : Instr) (s t : State) (h : exec i s = .next t) :
    t.mem = s.mem ∨ ∃ bytes, storeCheck s.cfg s.I.toNat bytes.length = none ∧ t.mem = s.mem.writeBytes s.I.toNat bytes := by
  have store : ∀ i bytes, storeAtI i bytes s = .next t → t.mem = s.mem ∨ ∃ bytes,
      storeCheck s.cfg s.I.toNat bytes.length = none ∧ t.mem = s.mem.writeBytes s.I.toNat bytes := fun i bytes h => by
    rcases storeAtI_cases i bytes s t h with ⟨hc, rfl⟩ | ⟨q, -, rfl⟩
    · exact .inr ⟨bytes, hc, rfl⟩
    · exact .inl rfl
  cases i
  case ldBVx => exact store _ _ h
  case ldMemVx => exact store _ _ h
  all_goals simp only [exec, execCls, execRet, execJp, execCall, execSeByte, execSneByte, execSeReg, execSneReg, execJpV0,
    execSkp, execSknp, execLdByte, execAddByte, execLdReg, execOrReg, execAndReg, execXorReg, execAddReg, execSubReg,
    execShr, execSubnReg, execShl, execRnd, execLdI, execAddIVx, execLdFVx, execLdVxMem,
    execLdVxDT, execLdVxK, execLdDTVx, execLdSTVx, execDrw, haltAt, Host.Outcome.next.injEq] at h
  all_goals first
    | (subst h; exact .inl (by simp))
    | (split at h <;> cases h <;> exact .inl (by simp))

/-- What no instruction changes: the launch parameters, the turns to come, the held keys and the tone pulses. -/
theorem exec_keeps (i : Instr) (s t : State) (h : exec i s = .next t) :
    t.cfg = s.cfg ∧ t.schedule = s.schedule ∧ t.pace = s.pace ∧ t.rounds = s.rounds ∧ t.held = s.held ∧ t.tones = s.tones := by
  cases i
  all_goals simp only [exec, execCls, execRet, execJp, execCall, execSeByte, execSneByte, execSeReg, execSneReg, execJpV0,
    execSkp, execSknp, execLdByte, execAddByte, execLdReg, execOrReg, execAndReg, execXorReg, execAddReg, execSubReg,
    execShr, execSubnReg, execShl, execRnd, execLdI, execAddIVx, execLdFVx, execLdBVx, execLdMemVx, execLdVxMem,
    execLdVxDT, execLdVxK, execLdDTVx, execLdSTVx, execDrw, storeAtI, haltAt, Host.Outcome.next.injEq] at h
  all_goals first
    | (subst h; simp)
    | (split at h <;> cases h <;> simp)

/-- All that a step does to the turns: it takes the next one, out of a new round when the present one is spent. -/
theorem step_turns (s t : State) (h : step s = .next t) :
    t.schedule = s.turns.tail ∧ t.pace = s.pace ∧ t.rounds = s.popTurn.rounds := by
  obtain ⟨-, h⟩ := step_cases s t h
  rcases h with ⟨-, ht⟩ | ⟨-, rfl⟩ | ⟨-, rfl⟩ | ⟨k, -, rfl⟩ | ⟨k, -, rfl⟩ | ⟨-, rfl⟩
  · rcases tick_cases _ _ ht with ⟨-, rfl⟩ | ⟨-, -, rfl⟩ | ⟨-, i, -, he⟩
    · simp
    · simp
    · obtain ⟨-, hs, hp, hr, -⟩ := exec_keeps _ _ _ he
      exact ⟨hs, hp, hr⟩
  · unfold delayTick; split <;> simp
  · unfold soundTick; split <;> simp
  · simp [keyPress]
  · simp [keyRelease]
  · simp [closeRequest]

@[simp] theorem popTurn_fetchWord (s : State) : fetchWord s.popTurn = fetchWord s := rfl

@[simp] theorem popTurn_instrAtPC (s : State) : instrAtPC s.popTurn = instrAtPC s := rfl

end Sys2Proof.Machine
end

