-- ==== Sys2Proof/Laws/Launch.lean ====
section
/-! SUPPORT. What a launch leaves, one lemma per field, and the bytes of its memory. -/

namespace Sys2Proof.Machine

variable (p : Launch)

/-- A launch gives a state exactly when its image fits the program region. -/
theorem launch_some (s : State) : State.launch p = some s ↔ p.image.length ≤ 3584 ∧ State.launched p = s := by
  unfold State.launch
  simp only [programSize, memSize, programBase, Nat.reduceSub]
  by_cases h : p.image.length ≤ 3584
  · simp [h]
  · simp [h]

@[simp] theorem launched_mem : (State.launched p).mem = Memory.ofBytes p.byteAt := rfl
@[simp] theorem launched_getV (r : Reg) : (State.launched p).getV r = p.initV.get r := rfl
@[simp] theorem launched_I : (State.launched p).I = p.initI := rfl
@[simp] theorem launched_PC : (State.launched p).PC = 0x200 := rfl
@[simp] theorem launched_stack : (State.launched p).stack = [] := rfl
@[simp] theorem launched_DT : (State.launched p).DT = p.initDT := rfl
@[simp] theorem launched_ST : (State.launched p).ST = p.initST := rfl
@[simp] theorem launched_Disp : (State.launched p).Disp = Vector.replicate 32 0 := rfl
@[simp] theorem launched_isHeld (k : Key) : (State.launched p).isHeld k = false := by
  simp [State.isHeld, State.launched, State.reset, Vector.get_eq_getElem]
@[simp] theorem launched_latch : (State.launched p).latch = none := rfl
@[simp] theorem launched_run : (State.launched p).run = .running := rfl
@[simp] theorem launched_cfg : (State.launched p).cfg = p.cfg := rfl
@[simp] theorem launched_schedule : (State.launched p).schedule = p.schedule := rfl
@[simp] theorem launched_pace : (State.launched p).pace = p.pace := rfl
@[simp] theorem launched_rounds : (State.launched p).rounds = 0 := rfl

/-- Every byte of the launched memory is the launch's byte for its address. -/
theorem launched_read (a : Nat) (h : a < 0x1000) : (State.launched p).mem.read a = p.byteAt a := read_ofBytes _ h

end Sys2Proof.Machine
end

