-- ==== Sys2Proof/Laws/PerInstr.lean ====
section
/-! SUPPORT. Statements made for every instruction as syntax, one lemma a constructor. -/

namespace Sys2Proof.Laws

/-- The instruction's own row of the table accepts its opcode and builds the instruction from it. -/
def OwnRow.Statement (i : Instr) : Prop :=
  ∀ yDontCare : Bool, i.wf yDontCare = true →
    ∃ (k : Nat) (d : Descriptor), (table yDontCare)[k]? = some d ∧ d.accepts (encode i) = true ∧ d.build (encode i) = i

theorem accepts_F000 {w : Word} {p : String} {e : Word} {f : Word → Instr} (a b c d : Nibble) (hw : w = nibbles a b c d)
    (he : e = nibbles a 0 0 0) : (Descriptor.mk p e 0xF000 f).accepts w = true := by
  subst hw he; simp only [Descriptor.accepts, nibbles_and_F000, beq_self_eq_true]

theorem accepts_F00F {w : Word} {p : String} {e : Word} {f : Word → Instr} (a b c d : Nibble) (hw : w = nibbles a b c d)
    (he : e = nibbles a 0 0 d) : (Descriptor.mk p e 0xF00F f).accepts w = true := by
  subst hw he; simp only [Descriptor.accepts, nibbles_and_F00F, beq_self_eq_true]

theorem accepts_F0FF {w : Word} {p : String} {e : Word} {f : Word → Instr} (a b c d : Nibble) (hw : w = nibbles a b c d)
    (he : e = nibbles a 0 c d) : (Descriptor.mk p e 0xF0FF f).accepts w = true := by
  subst hw he; simp only [Descriptor.accepts, nibbles_and_F0FF, beq_self_eq_true]


theorem OwnRow.cls : OwnRow.Statement (.cls) := fun _ _ => ⟨0, _, rfl, rfl, rfl⟩

theorem OwnRow.ret : OwnRow.Statement (.ret) := fun _ _ => ⟨1, _, rfl, rfl, rfl⟩

theorem OwnRow.jp (nnn : Addr) : OwnRow.Statement (.jp nnn) := fun _ _ =>
  ⟨2, _, rfl, accepts_F000 _ _ _ _ (formA_eq ..) (by decide), by simp only [encode, fieldNNN_formA]⟩

theorem OwnRow.call (nnn : Addr) : OwnRow.Statement (.call nnn) := fun _ _ =>
  ⟨3, _, rfl, accepts_F000 _ _ _ _ (formA_eq ..) (by decide), by simp only [encode, fieldNNN_formA]⟩

theorem OwnRow.seByte (x : Reg) (kk : Byte) : OwnRow.Statement (.seByte x kk) := fun _ _ =>
  ⟨4, _, rfl, accepts_F000 _ _ _ _ (formXKK_eq ..) (by decide), by simp only [encode, fieldX_formXKK, fieldKK_formXKK]⟩

theorem OwnRow.sneByte (x : Reg) (kk : Byte) : OwnRow.Statement (.sneByte x kk) := fun _ _ =>
  ⟨5, _, rfl, accepts_F000 _ _ _ _ (formXKK_eq ..) (by decide), by simp only [encode, fieldX_formXKK, fieldKK_formXKK]⟩

theorem OwnRow.seReg (x y : Reg) : OwnRow.Statement (.seReg x y) := fun _ _ =>
  ⟨6, _, rfl, accepts_F00F _ _ _ _ (formXYN_eq ..) (by decide), by
    simp only [encode, formXYN_eq, fieldX_nibbles, fieldY_nibbles, regOfNibble_nibbleOfReg]⟩

theorem OwnRow.ldByte (x : Reg) (kk : Byte) : OwnRow.Statement (.ldByte x kk) := fun _ _ =>
  ⟨7, _, rfl, accepts_F000 _ _ _ _ (formXKK_eq ..) (by decide), by simp only [encode, fieldX_formXKK, fieldKK_formXKK]⟩

theorem OwnRow.addByte (x : Reg) (kk : Byte) : OwnRow.Statement (.addByte x kk) := fun _ _ =>
  ⟨8, _, rfl, accepts_F000 _ _ _ _ (formXKK_eq ..) (by decide), by simp only [encode, fieldX_formXKK, fieldKK_formXKK]⟩

theorem OwnRow.ldReg (x y : Reg) : OwnRow.Statement (.ldReg x y) := fun _ _ =>
  ⟨9, _, rfl, accepts_F00F _ _ _ _ (formXYN_eq ..) (by decide), by
    simp only [encode, formXYN_eq, fieldX_nibbles, fieldY_nibbles, regOfNibble_nibbleOfReg]⟩

theorem OwnRow.orReg (x y : Reg) : OwnRow.Statement (.orReg x y) := fun _ _ =>
  ⟨10, _, rfl, accepts_F00F _ _ _ _ (formXYN_eq ..) (by decide), by
    simp only [encode, formXYN_eq, fieldX_nibbles, fieldY_nibbles, regOfNibble_nibbleOfReg]⟩

theorem OwnRow.andReg (x y : Reg) : OwnRow.Statement (.andReg x y) := fun _ _ =>
  ⟨11, _, rfl, accepts_F00F _ _ _ _ (formXYN_eq ..) (by decide), by
    simp only [encode, formXYN_eq, fieldX_nibbles, fieldY_nibbles, regOfNibble_nibbleOfReg]⟩

theorem OwnRow.xorReg (x y : Reg) : OwnRow.Statement (.xorReg x y) := fun _ _ =>
  ⟨12, _, rfl, accepts_F00F _ _ _ _ (formXYN_eq ..) (by decide), by
    simp only [encode, formXYN_eq, fieldX_nibbles, fieldY_nibbles, regOfNibble_nibbleOfReg]⟩

theorem OwnRow.addReg (x y : Reg) : OwnRow.Statement (.addReg x y) := fun _ _ =>
  ⟨13, _, rfl, accepts_F00F _ _ _ _ (formXYN_eq ..) (by decide), by
    simp only [encode, formXYN_eq, fieldX_nibbles, fieldY_nibbles, regOfNibble_nibbleOfReg]⟩

theorem OwnRow.subReg (x y : Reg) : OwnRow.Statement (.subReg x y) := fun _ _ =>
  ⟨14, _, rfl, accepts_F00F _ _ _ _ (formXYN_eq ..) (by decide), by
    simp only [encode, formXYN_eq, fieldX_nibbles, fieldY_nibbles, regOfNibble_nibbleOfReg]⟩

theorem OwnRow.shr (x : Reg) (y : Nibble) : OwnRow.Statement (.shr x y) := by
  intro yDontCare h
  refine ⟨15, _, rfl, ?_, by
    simp only [encode, formXYN_eq, fieldX_nibbles, fieldYBits_nibbles, regOfNibble_nibbleOfReg]⟩
  cases yDontCare with
  | true => exact accepts_F00F _ _ _ _ (formXYN_eq ..) (by decide)
  | false =>
    have hy : y = 0 := by simpa [Instr.wf] using h
    subst hy
    exact accepts_F0FF _ _ _ _ (formXYN_eq ..) (by decide)

theorem OwnRow.subnReg (x y : Reg) : OwnRow.Statement (.subnReg x y) := fun _ _ =>
  ⟨16, _, rfl, accepts_F00F _ _ _ _ (formXYN_eq ..) (by decide), by
    simp only [encode, formXYN_eq, fieldX_nibbles, fieldY_nibbles, regOfNibble_nibbleOfReg]⟩

theorem OwnRow.shl (x : Reg) (y : Nibble) : OwnRow.Statement (.shl x y) := by
  intro yDontCare h
  refine ⟨17, _, rfl, ?_, by
    simp only [encode, formXYN_eq, fieldX_nibbles, fieldYBits_nibbles, regOfNibble_nibbleOfReg]⟩
  cases yDontCare with
  | true => exact accepts_F00F _ _ _ _ (formXYN_eq ..) (by decide)
  | false =>
    have hy : y = 0 := by simpa [Instr.wf] using h
    subst hy
    exact accepts_F0FF _ _ _ _ (formXYN_eq ..) (by decide)

theorem OwnRow.sneReg (x y : Reg) : OwnRow.Statement (.sneReg x y) := fun _ _ =>
  ⟨18, _, rfl, accepts_F00F _ _ _ _ (formXYN_eq ..) (by decide), by
    simp only [encode, formXYN_eq, fieldX_nibbles, fieldY_nibbles, regOfNibble_nibbleOfReg]⟩

theorem OwnRow.ldI (nnn : Addr) : OwnRow.Statement (.ldI nnn) := fun _ _ =>
  ⟨19, _, rfl, accepts_F000 _ _ _ _ (formA_eq ..) (by decide), by simp only [encode, fieldNNN_formA]⟩

theorem OwnRow.jpV0 (nnn : Addr) : OwnRow.Statement (.jpV0 nnn) := fun _ _ =>
  ⟨20, _, rfl, accepts_F000 _ _ _ _ (formA_eq ..) (by decide), by simp only [encode, fieldNNN_formA]⟩

theorem OwnRow.rnd (x : Reg) (kk : Byte) : OwnRow.Statement (.rnd x kk) := fun _ _ =>
  ⟨21, _, rfl, accepts_F000 _ _ _ _ (formXKK_eq ..) (by decide), by simp only [encode, fieldX_formXKK, fieldKK_formXKK]⟩

theorem OwnRow.drw (x y : Reg) (n : Nibble) : OwnRow.Statement (.drw x y n) := fun _ _ =>
  ⟨22, _, rfl, accepts_F000 _ _ _ _ (formXYN_eq ..) (by decide), by
    simp only [encode, formXYN_eq, fieldX_nibbles, fieldY_nibbles, fieldN_nibbles, regOfNibble_nibbleOfReg]⟩

theorem OwnRow.skp (x : Reg) : OwnRow.Statement (.skp x) := fun _ _ =>
  ⟨23, _, rfl, accepts_F0FF _ _ _ _ (formXKK_eq ..) (by decide), by simp only [encode, fieldX_formXKK]⟩

theorem OwnRow.sknp (x : Reg) : OwnRow.Statement (.sknp x) := fun _ _ =>
  ⟨24, _, rfl, accepts_F0FF _ _ _ _ (formXKK_eq ..) (by decide), by simp only [encode, fieldX_formXKK]⟩

theorem OwnRow.ldVxDT (x : Reg) : OwnRow.Statement (.ldVxDT x) := fun _ _ =>
  ⟨25, _, rfl, accepts_F0FF _ _ _ _ (formXKK_eq ..) (by decide), by simp only [encode, fieldX_formXKK]⟩

theorem OwnRow.ldVxK (x : Reg) : OwnRow.Statement (.ldVxK x) := fun _ _ =>
  ⟨26, _, rfl, accepts_F0FF _ _ _ _ (formXKK_eq ..) (by decide), by simp only [encode, fieldX_formXKK]⟩

theorem OwnRow.ldDTVx (x : Reg) : OwnRow.Statement (.ldDTVx x) := fun _ _ =>
  ⟨27, _, rfl, accepts_F0FF _ _ _ _ (formXKK_eq ..) (by decide), by simp only [encode, fieldX_formXKK]⟩

theorem OwnRow.ldSTVx (x : Reg) : OwnRow.Statement (.ldSTVx x) := fun _ _ =>
  ⟨28, _, rfl, accepts_F0FF _ _ _ _ (formXKK_eq ..) (by decide), by simp only [encode, fieldX_formXKK]⟩

theorem OwnRow.addIVx (x : Reg) : OwnRow.Statement (.addIVx x) := fun _ _ =>
  ⟨29, _, rfl, accepts_F0FF _ _ _ _ (formXKK_eq ..) (by decide), by simp only [encode, fieldX_formXKK]⟩

theorem OwnRow.ldFVx (x : Reg) : OwnRow.Statement (.ldFVx x) := fun _ _ =>
  ⟨30, _, rfl, accepts_F0FF _ _ _ _ (formXKK_eq ..) (by decide), by simp only [encode, fieldX_formXKK]⟩

theorem OwnRow.ldBVx (x : Reg) : OwnRow.Statement (.ldBVx x) := fun _ _ =>
  ⟨31, _, rfl, accepts_F0FF _ _ _ _ (formXKK_eq ..) (by decide), by simp only [encode, fieldX_formXKK]⟩

theorem OwnRow.ldMemVx (x : Reg) : OwnRow.Statement (.ldMemVx x) := fun _ _ =>
  ⟨32, _, rfl, accepts_F0FF _ _ _ _ (formXKK_eq ..) (by decide), by simp only [encode, fieldX_formXKK]⟩

theorem OwnRow.ldVxMem (x : Reg) : OwnRow.Statement (.ldVxMem x) := fun _ _ =>
  ⟨33, _, rfl, accepts_F0FF _ _ _ _ (formXKK_eq ..) (by decide), by simp only [encode, fieldX_formXKK]⟩

end Sys2Proof.Laws
end

