-- ==== Sys2Proof/Tests/Slice0.lean ====
section
/-! SUPPORT. Tests against spec 30_encoding.md and 95_test_vectors.md, the checks' smoke tests, and the witnesses of the statements' hypotheses. -/

namespace Sys2Proof.Tests

open Sys2Proof.Machine

/-! ### What the checks refuse -/

theorem test_wf_refuses_shr_with_y : Instr.wf false (.shr 0 1) = false := by decide
theorem test_wf_refuses_shl_with_y : Instr.wf false (.shl 0 15) = false := by decide
theorem test_wf_takes_shifts_with_y_when_dont_care : (Instr.wf true (.shr 0 1) && Instr.wf true (.shl 0 15)) = true := by decide
theorem test_wf_refuses_high_font : Config.wf ⟨none, 0x1B1, false⟩ = false := by decide
theorem test_wf_takes_highest_font : Config.wf ⟨none, 0x1B0, false⟩ = true := by decide
theorem test_wf_refuses_short_glyphs : Launch.wf { glyphs := List.replicate 79 0 } = false := by
  decide
theorem test_wf_refuses_unsorted_memory : Memory.wf [(0x201, 1), (0x200, 1)] = false := by decide
theorem test_wf_refuses_repeated_address : Memory.wf [(0x200, 1), (0x200, 2)] = false := by decide
theorem test_wf_refuses_listed_reset_byte : (Memory.wf [(0x200, 0)] || Memory.wf [(0, 0xF0)]) = false := by decide
theorem test_wf_refuses_address_past_memory : Memory.wf [(0x1000, 1)] = false := by decide
theorem test_wf_of_reset_memory : State.reset.mem.wf = true := by decide

/-! ### Decoding: words written out bit by bit from the rows of spec 30_encoding.md R76 -/

theorem test_decode_cls : decode false [0b00000000, 0b11100000] = .ok .cls := by decide
theorem test_decode_ret : decode false [0b00000000, 0b11101110] = .ok .ret := by decide
theorem test_decode_jp : decode false [0b00010010, 0b00110100] = .ok (.jp 0x234) := by decide
theorem test_decode_call : decode false [0b00100101, 0b01100111] = .ok (.call 0x567) := by decide
theorem test_decode_seByte : decode false [0b00110001, 0b00100011] = .ok (.seByte 1 0x23) := by decide
theorem test_decode_sneByte : decode false [0b01000100, 0b01010110] = .ok (.sneByte 4 0x56) := by decide
theorem test_decode_seReg : decode false [0b01010001, 0b00100000] = .ok (.seReg 1 2) := by decide
theorem test_decode_ldByte : decode false [0b01100011, 0b00010000] = .ok (.ldByte 3 0x10) := by decide
theorem test_decode_addByte : decode false [0b01110011, 0b00000101] = .ok (.addByte 3 0x05) := by decide
theorem test_decode_ldReg : decode false [0b10000001, 0b00100000] = .ok (.ldReg 1 2) := by decide
theorem test_decode_orReg : decode false [0b10000011, 0b01000001] = .ok (.orReg 3 4) := by decide
theorem test_decode_andReg : decode false [0b10000101, 0b01100010] = .ok (.andReg 5 6) := by decide
theorem test_decode_xorReg : decode false [0b10000111, 0b10000011] = .ok (.xorReg 7 8) := by decide
theorem test_decode_addReg : decode false [0b10001001, 0b10100100] = .ok (.addReg 9 10) := by decide
theorem test_decode_subReg : decode false [0b10001011, 0b11000101] = .ok (.subReg 11 12) := by decide
theorem test_decode_shr : decode false [0b10001101, 0b00000110] = .ok (.shr 13 0) := by decide
theorem test_decode_subnReg : decode false [0b10001110, 0b11110111] = .ok (.subnReg 14 15) := by decide
theorem test_decode_shl : decode false [0b10000010, 0b00001110] = .ok (.shl 2 0) := by decide
theorem test_decode_sneReg : decode false [0b10010001, 0b00100000] = .ok (.sneReg 1 2) := by decide
theorem test_decode_ldI : decode false [0b10100001, 0b00100011] = .ok (.ldI 0x123) := by decide
theorem test_decode_jpV0 : decode false [0b10110011, 0b00000000] = .ok (.jpV0 0x300) := by decide
theorem test_decode_rnd : decode false [0b11000010, 0b00001111] = .ok (.rnd 2 0x0F) := by decide
theorem test_decode_drw : decode false [0b11010000, 0b00010101] = .ok (.drw 0 1 5) := by decide
theorem test_decode_skp : decode false [0b11100101, 0b10011110] = .ok (.skp 5) := by decide
theorem test_decode_sknp : decode false [0b11100110, 0b10100001] = .ok (.sknp 6) := by decide
theorem test_decode_ldVxDT : decode false [0b11110001, 0b00000111] = .ok (.ldVxDT 1) := by decide
theorem test_decode_ldVxK : decode false [0b11110011, 0b00001010] = .ok (.ldVxK 3) := by decide
theorem test_decode_ldDTVx : decode false [0b11110100, 0b00010101] = .ok (.ldDTVx 4) := by decide
theorem test_decode_ldSTVx : decode false [0b11110101, 0b00011000] = .ok (.ldSTVx 5) := by decide
theorem test_decode_addIVx : decode false [0b11110110, 0b00011110] = .ok (.addIVx 6) := by decide
theorem test_decode_ldFVx : decode false [0b11110111, 0b00101001] = .ok (.ldFVx 7) := by decide
theorem test_decode_ldBVx : decode false [0b11111000, 0b00110011] = .ok (.ldBVx 8) := by decide
theorem test_decode_ldMemVx : decode false [0b11111001, 0b01010101] = .ok (.ldMemVx 9) := by decide
theorem test_decode_ldVxMem : decode false [0b11111010, 0b01100101] = .ok (.ldVxMem 10) := by decide

/-- 95_test_vectors.md S8, T5 to T9: words of no instruction. -/
theorem test_decode_unhandled : ([0x5001, 0x0123, 0x8008, 0x8016, 0x800F, 0x9011, 0xE0A2, 0xF000, 0xFFFF] : List Word).all
    (fun w => (decodeWord false w).isNone) = true := by decide

/-- 95_test_vectors.md T7 under SHIFT_Y_DONTCARE. -/
theorem test_decode_shift_y_dont_care : decode true [0x80, 0x16] = .ok (.shr 0 1) := by decide

/-- 95_test_vectors.md S12. -/
theorem test_compile_pattern : compilePattern "5xx0".toList = some (0x5000, 0xF00F) := by decide

theorem test_decode_truncated : decode false [0x12] = .error .truncated := by decide

/-- The host's entry, for a row of 16 bits: bit 0 is the word's least significant bit. -/
theorem test_table_word : decodeTableWord 16 0xD015 = some (.drw 0 1 5) := by decide

/-! ### One step each: the vectors of spec 95_test_vectors.md section 2 -/

/-- Reset with some registers, I, and bytes at an address. -/
def start (regs : List (Reg × Byte)) (i : Word) (at_ : Nat) (bytes : List Byte) : State :=
  regs.foldl (fun s p => s.setV p.1 p.2) { State.reset with I := i, mem := Memory.writeBytes [] at_ bytes }

/-- Reset with some registers. -/
def regs (l : List (Reg × Byte)) : State := start l 0 0 []

/-- Whether the step from `s` with the word at PC gives a next state of which `p` holds. -/
def runs (s : State) (w : Nat) (p : State → Bool) : Bool :=
  match step (s.withFetchWord 16 w) with
  | .next t => p t
  | .fault _ => false
  | .refused _ => false

/-- The halt report an opcode of the program region gives at 0x200. -/
def halts (reason : HaltReason) (w : Word) (t : State) : Bool := decide (t.run = .halted reason 0x200 (some w)) && decide (t.PC = 0x200)

/-- T1. -/
theorem test_fetch_big_endian : runs State.reset 0x6012 (fun t => t.getV 0 == 0x12 && t.PC == 0x202) = true := by decide
/-- T2. -/
theorem test_fetch_odd : runs { State.reset with PC := 0x201 } 0x6107 (fun t => t.getV 1 == 7 && t.PC == 0x203) = true := by decide
/-- T3. -/
theorem test_fetch_last_word : runs { State.reset with PC := 0xFFE } 0x6001 (fun t => t.getV 0 == 1 && t.PC == 0x1000) = true := by decide
/-- T4. -/
theorem test_fetch_past_memory :
    step { State.reset with PC := 0xFFF, schedule := [.cpu] } =
      .next { State.reset with PC := 0xFFF, run := .halted .memRange 0xFFF none } := rfl
/-- T5, S8. -/
theorem test_unhandled : (runs State.reset 0x0123 (halts .unhandled 0x0123) && runs State.reset 0x5001 (halts .unhandled 0x5001)) = true := by
  decide

/-- T20. -/
theorem test_ret_underflow : runs State.reset 0x00EE (halts .stackUnderflow 0x00EE) = true := by decide
/-- T21. -/
theorem test_ret : runs { State.reset with stack := [0x206, 0x300] } 0x00EE (fun t => t.PC == 0x206 && t.stack == [0x300]) = true := by decide
/-- T22. -/
theorem test_jp : runs State.reset 0x1FFF (fun t => t.PC == 0xFFF) = true := by decide
/-- T23. -/
theorem test_call : runs { State.reset with PC := 0x204 } 0x220A (fun t => t.PC == 0x20A && t.stack == [0x206]) = true := by decide
/-- T24. -/
theorem test_call_overflow :
    runs { State.reset with cfg := ⟨some 1, 0, false⟩, stack := [0x300] } 0x2400
      (fun t => halts .stackOverflow 0x2400 t && t.stack == [0x300]) = true := by decide
/-- T25. -/
theorem test_seByte :
    (runs (regs [(3, 0x42)]) 0x3342 (·.PC == 0x204) && runs (regs [(3, 0x42)]) 0x3343 (·.PC == 0x202)) = true := by decide
/-- T26. -/
theorem test_sneByte :
    (runs (regs [(3, 0x42)]) 0x4342 (·.PC == 0x202) && runs (regs [(3, 0x42)]) 0x4343 (·.PC == 0x204)) = true := by decide
/-- T27, and the words of T28 with SE. -/
theorem test_seReg :
    (runs (regs [(1, 9), (2, 9)]) 0x5120 (·.PC == 0x204) && runs (regs [(1, 9), (2, 8)]) 0x5120 (·.PC == 0x202)) = true := by decide
/-- T28. -/
theorem test_sneReg :
    (runs (regs [(1, 9), (2, 8)]) 0x9120 (·.PC == 0x204) && runs (regs [(1, 9), (2, 8)]) 0x9110 (·.PC == 0x202)) = true := by decide
/-- T29, T30. -/
theorem test_jpV0 :
    (runs (regs [(0, 0xFF)]) 0xBFFF (·.PC == 0x10FE) && runs (regs [(0, 4), (5, 0x99)]) 0xB300 (·.PC == 0x304)) = true := by decide
/-- T31, T32. -/
theorem test_skp :
    (runs ((regs [(5, 0xA)]).setHeld 0xA true) 0xE59E (·.PC == 0x204) && runs (regs [(5, 0xA)]) 0xE59E (·.PC == 0x202)) = true := by decide
/-- T31, T32. -/
theorem test_sknp :
    (runs ((regs [(5, 0xA)]).setHeld 0xA true) 0xE5A1 (·.PC == 0x202) && runs (regs [(5, 0xA)]) 0xE5A1 (·.PC == 0x204)) = true := by decide
/-- T33. -/
theorem test_key_range : runs (regs [(5, 0x10)]) 0xE59E (halts .keyRange 0xE59E) = true := by decide

/-- T40. -/
theorem test_ldByte : runs (regs [(15, 1)]) 0x6F33 (fun t => t.getV 15 == 0x33) = true := by decide
/-- T41. -/
theorem test_addByte : runs (regs [(0, 0xFF)]) 0x7001 (fun t => t.getV 0 == 0 && t.getV 15 == 0) = true := by decide
/-- T43. -/
theorem test_ldReg : runs (regs [(1, 0x42)]) 0x8010 (fun t => t.getV 0 == 0x42) = true := by decide
/-- T44. -/
theorem test_orReg : runs (regs [(0, 0x0F), (1, 0xF0), (15, 7)]) 0x8011 (fun t => t.getV 0 == 0xFF && t.getV 15 == 7) = true := by decide
/-- T44. -/
theorem test_andReg : runs (regs [(0, 0x0F), (1, 0xF0), (15, 7)]) 0x8012 (fun t => t.getV 0 == 0 && t.getV 15 == 7) = true := by decide
/-- T44, T45. -/
theorem test_xorReg :
    (runs (regs [(0, 0x0F), (1, 0xF0), (15, 7)]) 0x8013 (fun t => t.getV 0 == 0xFF && t.getV 15 == 7) &&
      runs (regs [(0, 0x5A)]) 0x8003 (fun t => t.getV 0 == 0)) = true := by decide
/-- S1, T47. -/
theorem test_addReg : runs (regs [(0, 0xFF), (1, 1)]) 0x8014 (fun t => t.getV 0 == 0 && t.getV 15 == 1) = true := by decide
/-- T48, T49. -/
theorem test_addReg_flag_last :
    (runs (regs [(15, 0x80)]) 0x8FF4 (·.getV 15 == 1) && runs (regs [(15, 1), (3, 1)]) 0x8F34 (·.getV 15 == 0)) = true := by decide
/-- S2, T50. -/
theorem test_subReg :
    (runs (regs [(0, 1), (1, 2)]) 0x8015 (fun t => t.getV 0 == 0xFF && t.getV 15 == 0) &&
      runs (regs [(0, 5), (1, 5)]) 0x8015 (fun t => t.getV 0 == 0 && t.getV 15 == 0)) = true := by decide
/-- T51, T52. -/
theorem test_subReg_flag :
    (runs (regs [(0, 6), (1, 5)]) 0x8015 (fun t => t.getV 0 == 1 && t.getV 15 == 1) &&
      runs (regs [(15, 5), (0, 3)]) 0x8F05 (·.getV 15 == 1)) = true := by decide
/-- T53, T54. -/
theorem test_subnReg :
    (runs (regs [(0, 5), (1, 5)]) 0x8017 (fun t => t.getV 0 == 0 && t.getV 15 == 0) &&
      runs (regs [(0, 1), (1, 3)]) 0x8017 (fun t => t.getV 0 == 2 && t.getV 15 == 1)) = true := by decide
/-- T55, T57. -/
theorem test_shr :
    (runs (regs [(0, 5)]) 0x8006 (fun t => t.getV 0 == 2 && t.getV 15 == 1) && runs (regs [(15, 3)]) 0x8F06 (·.getV 15 == 1)) = true := by
  decide
/-- T58, T60. -/
theorem test_shl :
    (runs (regs [(0, 0x81)]) 0x800E (fun t => t.getV 0 == 2 && t.getV 15 == 1) && runs (regs [(15, 0x40)]) 0x8F0E (·.getV 15 == 0)) = true := by
  decide
/-- T62: any draw. -/
theorem test_rnd (s : State) : ∃ t, execRnd 2 0x00 s = .next t ∧ t.getV 2 = 0x00 :=
  ⟨_, rfl, by simp⟩

/-- T70. -/
theorem test_ldI : runs State.reset 0xA123 (·.I == 0x123) = true := by decide
/-- T71, T72. -/
theorem test_addIVx :
    (runs (start [(1, 1), (15, 9)] 0xFFFF 0 []) 0xF11E (fun t => t.I == 0 && t.getV 15 == 9) &&
      runs (start [(1, 1)] 0x0FFF 0 []) 0xF11E (·.I == 0x1000)) = true := by decide
/-- T73. -/
theorem test_ldFVx : runs (regs [(0, 0xA)]) 0xF029 (·.I == 0x032) = true := by decide
/-- T74. -/
theorem test_font_range : runs (regs [(0, 0x10)]) 0xF029 (fun t => halts .fontRange 0xF029 t && t.I == 0) = true := by decide
/-- T76, T77. -/
theorem test_ldBVx :
    (runs (start [(0, 0xFF)] 0x300 0 []) 0xF033 (fun t => t.mem.readBytes 0x300 3 == [2, 5, 5]) &&
      runs (start [(0, 0x7B)] 0xFFE 0 []) 0xF033 (fun t => halts .memRange 0xF033 t && t.mem.readBytes 0xFFE 2 == [0, 0])) = true := by decide
/-- T78. -/
theorem test_font_write : runs (start [(0, 9)] 0x04F 0 []) 0xF033 (fun t => halts .fontWrite 0xF033 t && t.mem.read 0x50 == 0) = true := by decide
/-- T79, T81. -/
theorem test_ldMemVx :
    (runs (start [(0, 1), (1, 2), (2, 3), (3, 4)] 0x300 0 []) 0xF255 (fun t => t.mem.readBytes 0x300 4 == [1, 2, 3, 0] && t.I == 0x300) &&
      runs (start [(0, 7)] 0x050 0 []) 0xF055 (fun t => t.mem.read 0x050 == 7)) = true := by decide
/-- T82, T83, T84. -/
theorem test_ldVxMem :
    (runs (start [(3, 9)] 0x300 0x300 [2, 5, 4, 1]) 0xF265 (fun t => t.V.toList.take 4 == [2, 5, 4, 9] && t.I == 0x300) &&
      runs State.reset 0xF465 (fun t => t.V.toList.take 6 == [0xF0, 0x90, 0x90, 0x90, 0xF0, 0]) &&
      runs (start [(0, 9)] 0xFFF 0 []) 0xF165 (fun t => halts .memRange 0xF165 t && t.getV 0 == 9)) = true := by decide

/-- T90. -/
theorem test_ldDTVx : runs (regs [(0, 5)]) 0xF015 (·.DT == 5) = true := by decide
/-- T90. -/
theorem test_ldVxDT : runs { State.reset with DT := 2 } 0xF107 (·.getV 1 == 2) = true := by decide
/-- T92. -/
theorem test_ldSTVx : runs (regs [(0, 3)]) 0xF018 (·.ST == 3) = true := by decide
/-- T93, T94. -/
theorem test_ldVxK :
    (runs (regs [(0, 9)]) 0xF00A (fun t => t.PC == 0x200 && t.getV 0 == 9 && t.latch == none) &&
      runs { State.reset with latch := some 7 } 0xF30A (fun t => t.PC == 0x202 && t.getV 3 == 7 && t.latch == none)) = true := by decide
/-- T91. -/
theorem test_delay_tick_at_zero : (delayTick State.reset).DT = 0 ∧ (delayTick { State.reset with DT := 5 }).DT = 4 := by decide
/-- T92. -/
theorem test_sound_tick :
    (soundTick { State.reset with ST := 1 }).tones = 1 ∧ (soundTick { State.reset with ST := 1 }).ST = 0 ∧ (soundTick State.reset).tones = 0 := by
  decide
/-- T95, T96. -/
theorem test_latch :
    (keyRelease 4 (keyPress 4 State.reset)).latch = some 4 ∧ (keyRelease 4 (keyPress 4 State.reset)).isHeld 4 = false ∧
      (keyPress 9 (keyPress 2 State.reset)).latch = some 9 := by decide

/-- Spec 60_exceptions.md R248: a round that leaves an agent out gets its turn, and reset's next turn is the CPU's. -/
theorem test_rounds_are_fair :
    fairRound [] = [.cpu, .delayTimer, .soundTimer] ∧ fairRound [.soundTimer, .soundTimer] = [.soundTimer, .soundTimer, .cpu, .delayTimer] ∧
      State.reset.turns.head? = some .cpu ∧ State.reset.popTurn.rounds = 1 := by decide

/-- T100. -/
theorem test_cls : runs ({ State.reset with Disp := Vector.replicate 32 0xFF }.setV 15 1) 0x00E0
    (fun t => t.Disp == Vector.replicate 32 0 && t.getV 15 == 1) = true := by decide
/-- S5, T101, T102, T104, T105, T107: column c is bit c of the row. -/
theorem test_drw_wraps :
    (runs (start [(0, 60)] 0x300 0x300 [0xF0]) 0xD011 (fun t => t.Disp.get 0 == 0xF000000000000000 && t.getV 15 == 0) &&
      runs (start [(0, 60)] 0x300 0x300 [0xFF]) 0xD011 (fun t => t.Disp.get 0 == 0xF00000000000000F && t.getV 15 == 0) &&
      runs (start [(1, 31)] 0x300 0x300 [0x80, 0x80]) 0xD012 (fun t => t.pixel 31 0 && t.pixel 0 0 && !t.pixel 1 0) &&
      runs (start [(0, 70), (1, 33)] 0x300 0x300 [0x80]) 0xD011 (fun t => t.pixel 1 6) &&
      runs (start [(15, 10)] 0x300 0x300 [0x80]) 0xDF01 (fun t => t.pixel 0 10 && t.getV 15 == 0)) = true := by decide
/-- T103, T108, T109, T106. -/
theorem test_drw_collides :
    (runs { start [(0, 60)] 0x300 0x300 [0xFF] with Disp := (Vector.replicate 32 0).set 0 0xF00000000000000F } 0xD011
        (fun t => t.Disp.get 0 == 0 && t.getV 15 == 1) &&
      runs { start [] 0x300 0x300 [0x40] with Disp := (Vector.replicate 32 0).set 0 1 } 0xD011
        (fun t => t.Disp.get 0 == 3 && t.getV 15 == 0) &&
      runs (start [] 0xFFE 0 []) 0xD013 (halts .memRange 0xD013) && runs (regs [(15, 1)]) 0xD010 (·.getV 15 == 0)) = true := by decide
/-- Glyphs A and 4, and the end of the digit region (spec 10_state.md R33). -/
theorem test_glyphs :
    Memory.readBytes [] 0x32 5 = [0xF0, 0x90, 0xF0, 0x90, 0x90] ∧ Memory.readBytes [] 20 5 = [0x90, 0x90, 0xF0, 0x10, 0x10] ∧
      Memory.read [] 0x4F = 0x80 ∧ Memory.read [] 0x50 = 0 := by decide

/-! ### Witnesses: states and operands that meet the hypotheses of each statement, one for each clause, at boundary values -/

theorem witness_DecodeReadsBackEveryEncodedInstruction :
    Instr.wf false (.drw 15 15 15) = true ∧ Instr.wf false (.shr 15 0) = true ∧ Instr.wf true (.shl 15 15) = true := by decide

theorem witness_EncodeReproducesEveryDecodedWord :
    decode false [0xFF, 0x65] = .ok (.ldVxMem 15) ∧ decode true [0x8F, 0xFE] = .ok (.shl 15 15) := by decide

theorem witness_FirstMatchScanIsFreeOfOrder : (table false).reverse.Perm (table false) ∧ decodeWord false 0xFF65 ≠ none :=
  ⟨List.reverse_perm _, by decide⟩

theorem witness_PatternsCompileToTheirExpectedAndMask :
    (∃ d, d ∈ table false ∧ d.pattern = "8x06") ∧ (∃ d, d ∈ table true ∧ d.pattern = "8xx6") ∧
      ('?' ∈ "5xx?".toList ∧ '?' ≠ 'x' ∧ hexDigit? '?' = none ∧ isSeparator '?' = false) :=
  ⟨⟨(table false)[15], List.getElem_mem _, rfl⟩, ⟨(table true)[15], List.getElem_mem _, rfl⟩, by decide⟩

/-- The last word of memory holds LD V0, 0x01. -/
def lastWord : State := { State.reset with PC := 0xFFE, mem := [(0xFFE, 0x60), (0xFFF, 0x01)], schedule := [.cpu, .close] }

theorem witness_StepRunsTheDecodedInstruction :
    lastWord.run = .running ∧ lastWord.cpuTurn = true ∧ lastWord.PC.toNat < 0x0FFF ∧
      decode lastWord.cfg.shiftYDontCare [lastWord.mem.read 0xFFE, lastWord.mem.read 0xFFF] = .ok (.ldByte 0 1) := by decide

theorem witness_FetchChecksThenReadsBigEndian :
    (({ State.reset with PC := 0xFFF } : State).run = .running ∧ ({ State.reset with PC := 0xFFF } : State).cpuTurn = true ∧
      0x0FFF ≤ ({ State.reset with PC := 0xFFF } : State).PC.toNat) ∧ lastWord.PC.toNat < 0x0FFF := by decide

theorem witness_UnhandledWordHalts :
    State.reset.run = .running ∧ State.reset.cpuTurn = true ∧ State.reset.PC.toNat < 0x0FFF ∧
      ∀ d ∈ table State.reset.cfg.shiftYDontCare, fetchWord State.reset &&& d.mask ≠ d.expected := by decide

theorem witness_EveryHaltIsPrecise : ∃ t, step State.reset = .next t ∧ t.run ≠ .running := ⟨_, rfl, by decide⟩

/-- Each reason's cause occurs (the opcode is the word given, at 0x200). -/
theorem witness_EveryHaltHasItsCause :
    runs State.reset 0x5001 (halts .unhandled 0x5001) = true ∧
    (∃ t, step { State.reset with schedule := [.close] } = .next t ∧ t.run = .halted .hostExit 0x200 none) ∧
    runs State.reset 0x00EE (halts .stackUnderflow 0x00EE) = true ∧
    runs { State.reset with cfg := ⟨some 0, 0, false⟩ } 0x2400 (halts .stackOverflow 0x2400) = true ∧
    runs (start [] 0xFF2 0 []) 0xD00F (halts .memRange 0xD00F) = true ∧ runs (start [] 0xFFE 0 []) 0xF033 (halts .memRange 0xF033) = true ∧
    runs (start [] 0xFF1 0 []) 0xFF55 (halts .memRange 0xFF55) = true ∧ runs (start [] 0xFF1 0 []) 0xFF65 (halts .memRange 0xFF65) = true ∧
    (∃ t, step { State.reset with PC := 0xFFF } = .next t ∧ t.run = .halted .memRange 0xFFF none) ∧
    runs (start [] 0x4F 0 []) 0xF033 (halts .fontWrite 0xF033) = true ∧ runs (start [] 0x4F 0 []) 0xF055 (halts .fontWrite 0xF055) = true ∧
    runs (regs [(5, 0x10)]) 0xE59E (halts .keyRange 0xE59E) = true ∧ runs (regs [(5, 0xFF)]) 0xE5A1 (halts .keyRange 0xE5A1) = true ∧
    runs (regs [(0, 0x10)]) 0xF029 (halts .fontRange 0xF029) = true :=
  ⟨by decide, ⟨_, rfl, by decide⟩, by decide, by decide, by decide, by decide, by decide, by decide, ⟨_, rfl, by decide⟩, by decide,
    by decide, by decide, by decide, by decide⟩

theorem witness_NoStepFollowsAHalt : ∃ t, step lastWord = .next t := ⟨_, rfl⟩

theorem witness_HaltedMachineAnswersItsReport :
    ({ State.reset with run := .halted .memRange 0xFFF none, schedule := [.keyPress 0] } : State).run = .halted .memRange 0xFFF none := by decide

theorem witness_RunningMachineAlwaysSteps :
    ({ State.reset with schedule := [.soundTimer] } : State).run = .running ∧
      (∃ t, lastWord.schedule = [.cpu, .close] ++ [] ∧ 1 < [Turn.cpu, .close].length ∧
        Host.Core.run Sys2Proof.core 1 lastWord = .next t) ∧
      Turn.soundTimer ∈ [Turn.cpu, .delayTimer, .soundTimer] := ⟨by decide, ⟨_, rfl, by decide, rfl⟩, by decide⟩

theorem witness_InstructionsAdvanceByOpcodeWidths :
    State.reset.run = .running ∧ (∃ t, exec .cls State.reset = .next t ∧ t.run = .running) ∧
      (∃ t, exec (.seReg 0 0) { State.reset with PC := 0xFFFE } = .next t ∧ t.run = .running) ∧
      (∃ t, exec (.ldVxK 0) State.reset = .next t ∧ t.run = .running) :=
  ⟨by decide, ⟨_, rfl, by decide⟩, ⟨_, rfl, by decide⟩, ⟨_, rfl, by decide⟩⟩

theorem witness_RetPopsIntoPC : ({ State.reset with stack := [0x206] } : State).stack = 0x206 :: [] ∧ State.reset.stack = [] := by decide

/-- A stack at its finite depth, and one below it. -/
def fullStack : State := { State.reset with cfg := ⟨some 1, 0, false⟩, stack := [0x300] }

theorem witness_CallPushesAndJumps :
    State.reset.cfg.stackDepth ≠ some State.reset.stack.length ∧
      ({ fullStack with stack := [] } : State).cfg.stackDepth ≠ some ({ fullStack with stack := [] } : State).stack.length ∧
      fullStack.cfg.stackDepth = some fullStack.stack.length := by decide

theorem witness_RetAfterCallResumes :
    State.reset.cfg.stackDepth ≠ some State.reset.stack.length ∧
      ∃ t u, exec (.call 0xFFF) State.reset = .next t ∧ exec .ret t = .next u := ⟨by decide, _, _, rfl, rfl⟩

theorem witness_KeySkipsReadTheHeldKey :
    ((regs [(5, 0xF)]).getV 5).toNat = (15 : Key).val ∧ (State.reset.getV 5).toNat = (0 : Key).val ∧ 0xF < ((regs [(5, 0x10)]).getV 5).toNat := by
  decide

theorem witness_OnlyDestinationsChange :
    ∃ t, exec (.addReg 0 1) (regs [(0, 0xFF), (1, 1)]) = .next t ∧ t.getV VF ≠ (regs [(0, 0xFF), (1, 1)]).getV VF := ⟨_, rfl, by decide⟩

theorem witness_LdFPointsAtTheGlyph :
    ({ regs [(0, 0xF)] with cfg := ⟨none, 0x1B0, false⟩ } : State).cfg.wf = true ∧ ((regs [(0, 0xF)]).getV 0).toNat ≤ 0xF ∧
      0xF < ((regs [(0, 0x10)]).getV 0).toNat := by decide

theorem witness_LdBStoresDecimalDigits :
    State.reset.mem.wf = true ∧
    (∀ i : Word, i = 0xFFD ∨ i = 0x50 → i.toNat + 2 < 0x1000 ∧ ∀ k, k < 3 → inFont Config.default (i.toNat + k) = false) ∧
    (0x4F + 2 < 0x1000 ∧ inFont Config.default (0x4F + 0) = true) ∧
    ((0x1AE : Nat) + 2 < 0x1000 ∧ inFont ⟨none, 0x1B0, false⟩ (0x1AE + 2) = true) ∧
    (0x1000 ≤ (0xFFE : Word).toNat + 2 ∧ 0x1000 ≤ (0xFFFF : Word).toNat + 2) := by
  refine ⟨by decide, ?_, by decide, by decide, by decide⟩
  rintro i (rfl | rfl) <;> decide

theorem witness_LdMemStoresTheRegisterBlock :
    State.reset.mem.wf = true ∧
    ((0xFF0 : Word).toNat + (15 : Reg).val < 0x1000 ∧ ∀ k, k < 16 → inFont Config.default ((0xFF0 : Word).toNat + k) = false) ∧
    ((0x50 : Word).toNat + (0 : Reg).val < 0x1000 ∧ ∀ k, k < 1 → inFont Config.default ((0x50 : Word).toNat + k) = false) ∧
    ((0x4F : Word).toNat + (0 : Reg).val < 0x1000 ∧ inFont Config.default ((0x4F : Word).toNat + 0) = true) ∧
    (0x1000 ≤ (0xFF1 : Word).toNat + (15 : Reg).val ∧ 0x1000 ≤ (0x1000 : Word).toNat + (0 : Reg).val) := by decide

theorem witness_LdVxMemLoadsTheRegisterBlock :
    (start [] 0xFF0 0 []).I.toNat + (15 : Reg).val < 0x1000 ∧ 0x1000 ≤ (start [] 0xFF1 0 []).I.toNat + (15 : Reg).val := by decide

theorem witness_StoresChangeOnlyTheBytesWritten :
    Memory.wf [(0xFFF, 1)] = true ∧ 0xFFE + ([7, 0] : List Byte).length ≤ 0x1000 ∧
      (0xFFE ≤ 0xFFF ∧ 0xFFF < 0xFFE + ([7, 0] : List Byte).length) := by decide

theorem witness_EqualMemoriesAreEqualData :
    Memory.wf (Memory.writeBytes [(0x200, 1)] 0xFFF [5]) = true ∧ Memory.wf [(0x200, 1), (0xFFF, 5)] = true ∧
      ∀ a, a < 0x1000 → Memory.read (Memory.writeBytes [(0x200, 1)] 0xFFF [5]) a = Memory.read [(0x200, 1), (0xFFF, 5)] a :=
  ⟨by decide, by decide, fun _ _ => rfl⟩

/-- LD [I], V1 at 0x200 writes the word it runs next. -/
def selfModifying : State := { start [(0, 0x60), (1, 0x12)] 0x202 0x200 [0xF1, 0x55] with PC := 0x200 }

theorem witness_StoredBytesAreFetched :
    (0 : Reg).val + 1 ≤ (1 : Reg).val ∧ selfModifying.mem.wf = true ∧ selfModifying.run = .running ∧
      ∃ t, exec (.ldMemVx 1) selfModifying = .next t ∧ t.run = .running ∧ t.PC.toNat = selfModifying.I.toNat + (0 : Reg).val :=
  ⟨by decide, by decide, by decide, _, rfl, by decide, by decide⟩

theorem witness_NoStepChangesTheDigitRegion :
    selfModifying.mem.wf = true ∧ (∃ t, step selfModifying = .next t) ∧ inFont selfModifying.cfg 0x4F = true :=
  ⟨by decide, ⟨_, rfl⟩, by decide⟩

theorem witness_LdVxKTakesTheLatchOrWaits : ({ State.reset with latch := some 15 } : State).latch = some 15 ∧ State.reset.latch = none := by decide

theorem witness_TimerAgentsDecrement :
    State.reset.run = .running ∧ ({ State.reset with DT := 1, schedule := [.delayTimer] } : State).turns.head? = some .delayTimer ∧
      ({ State.reset with pace := .cycle [.delayTimer] } : State).turns.head? = some .delayTimer ∧
      ({ State.reset with ST := 255, schedule := [.soundTimer] } : State).turns.head? = some .soundTimer := by decide

theorem witness_HostKeyStepsUpdateHeldAndLatch :
    State.reset.run = .running ∧ ({ State.reset with schedule := [.keyPress 15] } : State).turns.head? = some (.keyPress 15) ∧
      ({ State.reset with pace := .cycle [.keyRelease 0] } : State).turns.head? = some (.keyRelease 0) ∧
      ∃ t, step { State.reset with schedule := [.keyPress 15] } = .next t ∧ t.held ≠ State.reset.held :=
  ⟨by decide, by decide, by decide, _, rfl, by decide⟩

theorem witness_CloseHaltsAtTheBoundary :
    ({ lastWord with schedule := [.close, .cpu] } : State).run = .running ∧
      ({ lastWord with schedule := [.close, .cpu] } : State).turns.head? = some .close := by decide

/-- LD DT, V0 at 0x200 with V0 = 5 and DT = 1 (95_test_vectors.md T97). -/
def setsDelay : State := { start [(0, 5)] 0 0x200 [0xF0, 0x15] with DT := 1 }

/-- LD ST, V0 at 0x200 with V0 = 5. -/
def setsSound : State := start [(0, 5)] 0 0x200 [0xF0, 0x18]

theorem witness_OnlyLdDTRaisesTheDelayTimer : ∃ t, step setsDelay = .next t ∧ setsDelay.DT.toNat < t.DT.toNat := ⟨_, rfl, by decide⟩

theorem witness_TimersCountDown :
    setsDelay.run = .running ∧
      ({ setsDelay with schedule := [.delayTimer, .delayTimer, .cpu] } : State).schedule = List.replicate 2 .delayTimer ++ [.cpu] ∧
      ({ setsDelay with schedule := [.soundTimer, .soundTimer, .cpu] } : State).schedule = List.replicate 2 .soundTimer ++ [.cpu] := by decide

theorem witness_TimerWriteRacesTheTick :
    setsDelay.run = .running ∧ setsSound.run = .running ∧ setsDelay.PC.toNat < 0x0FFF ∧ setsSound.PC.toNat < 0x0FFF ∧
    (instrAtPC { setsDelay with schedule := [.delayTimer, .cpu] } = some (.ldDTVx 0)) ∧
    (instrAtPC { setsDelay with schedule := [.cpu, .delayTimer] } = some (.ldDTVx 0)) ∧
    (instrAtPC { setsSound with schedule := [.soundTimer, .cpu] } = some (.ldSTVx 0)) ∧
    (instrAtPC { setsSound with schedule := [.cpu, .soundTimer] } = some (.ldSTVx 0)) := by decide

theorem witness_DrwFlipsTheSpritesPixels :
    ((0 : Nibble).toNat = 0) ∧ ((0xFF1 : Word).toNat + (15 : Nibble).toNat - 1 < 0x1000) ∧
      (0 < (15 : Nibble).toNat ∧ 0x1000 ≤ (0xFF2 : Word).toNat + (15 : Nibble).toNat - 1) ∧
      (0 < (1 : Nibble).toNat ∧ 0x1000 ≤ (0x1000 : Word).toNat + (1 : Nibble).toNat - 1) := by decide

theorem witness_DrawingTwiceRestores :
    (List.replicate 15 (0xFF : Byte)).length ≤ 15 ∧ (∃ b ∈ List.replicate 15 (0xFF : Byte), b ≠ 0) ∧ ∀ b ∈ ([0, 0] : List Byte), b = 0 := by decide

theorem witness_EachPartHasItsWriters :
    (∃ t, exec (.ldI 1) State.reset = .next t ∧ t.I ≠ State.reset.I) ∧
    (∃ t, exec (.call 1) State.reset = .next t ∧ t.stack ≠ State.reset.stack) ∧
    (∃ t, exec (.ldDTVx 0) (regs [(0, 5)]) = .next t ∧ t.DT ≠ (regs [(0, 5)]).DT) ∧
    (∃ t, exec (.ldSTVx 0) (regs [(0, 5)]) = .next t ∧ t.ST ≠ (regs [(0, 5)]).ST) ∧
    (∃ t, exec (.drw 0 0 1) State.reset = .next t ∧ t.pixel 0 0 ≠ State.reset.pixel 0 0) ∧
    (∃ t, exec (.ldVxK 0) { State.reset with latch := some 0 } = .next t ∧ t.latch ≠ some 0) ∧
    (∃ t, exec (.ldMemVx 0) (start [(0, 5)] 0xFFF 0 []) = .next t ∧ t.mem.read 0xFFF ≠ (start [(0, 5)] 0xFFF 0 []).mem.read 0xFFF) ∧
    (∃ t, exec (.rnd 0 0) State.reset = .next t ∧ t.draws ≠ State.reset.draws) :=
  ⟨⟨_, rfl, by decide⟩, ⟨_, rfl, by decide⟩, ⟨_, rfl, by decide⟩, ⟨_, rfl, by decide⟩, ⟨_, rfl, by decide⟩, ⟨_, rfl, by decide⟩,
    ⟨_, rfl, by decide⟩, ⟨_, rfl, by decide⟩⟩

theorem witness_NoInstructionReadsTheSoundTimer :
    (∃ t, exec (.ldSTVx 0) setsSound = .next t) ∧ ∃ t, exec (.drw 0 0 15) setsSound = .next t := ⟨⟨_, rfl⟩, ⟨_, rfl⟩⟩

theorem witness_OnlyKeyInstructionsReadTheKeys :
    (∀ x, Instr.ldVxDT 0 ≠ .ldVxK x ∧ Instr.ldVxDT 0 ≠ .skp x ∧ Instr.ldVxDT 0 ≠ .sknp x) ∧ ∃ t, exec (.ldVxDT 0) setsDelay = .next t :=
  ⟨by decide, _, rfl⟩

/-- A launch with an image that fills the program region, the highest digit region, and a finite stack. -/
def fullLaunch : Launch :=
  ⟨⟨some 16, 0x1B0, true⟩, List.replicate 80 0xFF, fun _ => 1, Vector.replicate 16 2, 3, 4, 5, List.replicate 3584 6, [], .free⟩

theorem fullLaunch_image : fullLaunch.image.length = 3584 := List.length_replicate

theorem fullLaunch_wf : fullLaunch.wf = true := by
  rw [Launch.wf, fullLaunch_image]; decide

theorem fullLaunch_starts : ∃ s, State.launch fullLaunch = some s :=
  ⟨_, if_pos (by rw [fullLaunch_image]; decide)⟩

/-- The same launch with one byte more. -/
theorem tooLarge_image : ({ fullLaunch with image := List.replicate 3585 6 } : Launch).image.length = 3585 := List.length_replicate

theorem witness_LaunchSetsEveryPart :
    (fullLaunch.wf = true ∧ ∃ s, State.launch fullLaunch = some s) ∧ fullLaunch.image.length ≤ 3584 ∧
      3584 < ({ fullLaunch with image := List.replicate 3585 6 } : Launch).image.length :=
  ⟨⟨fullLaunch_wf, fullLaunch_starts⟩, by rw [fullLaunch_image], by rw [tooLarge_image]; decide⟩

theorem witness_InvariantHoldsAfterEveryLaunch : fullLaunch.wf = true ∧ ∃ s, State.launch fullLaunch = some s :=
  ⟨fullLaunch_wf, fullLaunch_starts⟩

/-- The invariant at its bounds: PC at 0x10FE, a full stack that holds 0x1000, the highest digit region. -/
def edge : State := { State.reset with PC := 0x10FE, stack := [0x1000], cfg := ⟨some 1, 0x1B0, false⟩ }

theorem edge_inv : Inv edge where
  mem := by decide
  cfg := by decide
  PC := by decide
  stack := List.forall_mem_singleton.mpr (by decide)
  depth d h := by obtain rfl : 1 = d := Option.some.inj h; decide

theorem setsDelay_inv : Inv setsDelay where
  mem := by decide
  cfg := by decide
  PC := by decide
  stack := fun a h => absurd (show a ∈ ([] : List Word) from h) List.not_mem_nil
  depth d h := absurd (show (none : Option Nat) = some d from h) (by simp)

theorem witness_EveryStepKeepsTheInvariant : (Inv edge ∧ ∃ t, step edge = .next t) ∧ Inv setsDelay ∧ ∃ t, step setsDelay = .next t :=
  ⟨⟨edge_inv, _, rfl⟩, setsDelay_inv, _, rfl⟩

theorem witness_PlacedWordRunsNext :
    edge.mem.wf = true ∧ decode edge.cfg.shiftYDontCare [highByte 0xFF65, lowByte 0xFF65] = .ok (.ldVxMem 15) := by decide

end Sys2Proof.Tests
end

section
/-! PROOFS. The CPU's tick before an instruction runs: the fetch, and the word that no row matches (spec 40_execution_cycle.md R101, R102). -/

namespace Sys2Proof

/-- A row rejects exactly the words whose masked value differs from its expected value (R74). -/
theorem Descriptor.accepts_eq_false_iff (d : Descriptor) (op : Word) : d.accepts op = false ↔ op &&& d.mask ≠ d.expected := by
  rw [Descriptor.accepts, beq_eq_false_iff_ne]

/-- The scan finds nothing exactly when every row rejects the word, whatever the rows are. -/
theorem scan_eq_none_iff (rows : List Descriptor) (op : Word) : scan rows op = none ↔ ∀ d ∈ rows, d.accepts op = false := by
  induction rows with
  | nil => simp [scan]
  | cons d rows ih => cases h : d.accepts op <;> simp [scan_cons, h, ih]

/-- A word is unhandled exactly when it matches no row of the table (R77, R102). -/
theorem decodeWord_eq_none_iff (yDontCare : Bool) (op : Word) :
    decodeWord yDontCare op = none ↔ ∀ d ∈ table yDontCare, op &&& d.mask ≠ d.expected := by
  simp only [decodeWord, scan_eq_none_iff, Descriptor.accepts_eq_false_iff]

end Sys2Proof

namespace Sys2Proof.Machine

/-- The fetched word has the byte at PC in its high half. -/
theorem fetchWord_toNat (s : State) :
    (fetchWord s).toNat = 256 * (s.mem.read s.PC.toNat).toNat + (s.mem.read (s.PC.toNat + 1)).toNat :=
  wordOfBytes_toNat _ _

/-- A CPU turn whose tick halts is a step to the state with the turn taken and that halt reported, all else as it was. -/
theorem step_haltedFrom_of_tick (s : State) (q : HaltReason) (o : Option Word) (hr : s.run = .running) (hc : s.cpuTurn = true)
    (h : tick s.popTurn = .next (s.popTurn.halt q o)) : ∃ t, step s = .next t ∧ HaltedFrom s.popTurn t q o :=
  ⟨s.popTurn.halt q o, by rw [step_cpu s hr hc, h], haltedFrom_halt _ q o⟩

/-- A tick at a word in memory that stands for no instruction halts with that word. -/
theorem tick_unhandled (s : State) (hp : s.PC.toNat < 0x0FFF) (hi : instrAtPC s = none) :
    tick s = .next (s.halt .unhandled (some (fetchWord s))) := by
  rw [tick_in_range s hp, hi]

/-- Settles O8: the tick out of range halts at the fetch check, and in range the two bytes at PC are the word, high byte first. -/
theorem fetchChecksThenReadsBigEndian : Obligations.FetchChecksThenReadsBigEndian := by
  unfold Obligations.FetchChecksThenReadsBigEndian
  constructor
  · intro s hr hc hp
    exact step_haltedFrom_of_tick s .memRange none hr hc (tick_out_of_range s.popTurn hp)
  · intro s hp
    exact ⟨fetchBytes_some s hp, fetchWord_toNat s⟩

/-- Settles O9: a word that every row rejects decodes to no instruction, and the tick halts there with the word it fetched. -/
theorem unhandledWordHalts : Obligations.UnhandledWordHalts := by
  unfold Obligations.UnhandledWordHalts
  intro s hr hc hp hw
  have hi : instrAtPC s = none := (decodeWord_eq_none_iff _ _).mpr hw
  exact step_haltedFrom_of_tick s .unhandled (some (fetchWord s)) hr hc (tick_unhandled s.popTurn hp hi)

end Sys2Proof.Machine
end

section
/-! PROOFS. Control flow: the jumps, the stack, and the compare-and-skip instructions (spec 41_control_flow.md R121 to R130). -/

namespace Sys2Proof.Machine

/-! ### What the shared operations of control flow change -/

theorem sameBut_setPC (s : State) (a : Word) : SameBut [.PC] s (s.setPC a) := by
  constructor <;> simp

theorem sameBut_advance (s : State) (n : Nat) : SameBut [.PC] s (s.advance n) := sameBut_setPC s _

theorem sameBut_setStack_setPC (s : State) (l : List Word) (a : Word) : SameBut [.PC, .stack] s ((s.setStack l).setPC a) := by
  constructor <;> simp

theorem stackFull_iff (s : State) : s.stackFull = true ↔ s.cfg.stackDepth = some s.stack.length := decide_eq_true_iff

/-- The advance of a skip instruction is two opcode widths when its condition holds, else one (R103, R105). -/
theorem advance_skipIf_PC_toNat (s : State) (b : Bool) :
    (s.advance (skipIf b)).PC.toNat = if b then skipPC s else nextPC s := by
  rw [advance_PC_toNat]
  cases b <;> rfl

/-- An address and a byte add up without a wrap: at most 0xFFF + 0xFF (R128). -/
theorem zextAddr_add_zextByte_toNat (nnn : Addr) (b : Byte) : (zextAddr nnn + zextByte b).toNat = nnn.toNat + b.toNat := by
  rw [BitVec.toNat_add, zextAddr_toNat, zextByte_toNat]
  have := nnn.isLt
  have := b.isLt
  omega

/-! ### The two outcomes that several instructions share -/

/-- An instruction that advances by a skip changes PC alone, by two widths when the condition holds and by one otherwise. -/
theorem exec_skipIf {i : Instr} {s : State} {b : Bool} (h : exec i s = .next (s.advance (skipIf b))) :
    ∃ t, exec i s = .next t ∧ t.PC.toNat = (if b then skipPC s else nextPC s) ∧ SameBut [.PC] s t :=
  ⟨_, h, advance_skipIf_PC_toNat s b, sameBut_advance s _⟩

/-- An instruction's own halt reports the instruction's opcode and changes `run` alone. -/
theorem exec_haltAt {i : Instr} {s : State} {q : HaltReason} {w : Word} (h : exec i s = haltAt i q s) (hw : encode i = w) :
    ∃ t, exec i s = .next t ∧ HaltedFrom s t q (some w) :=
  ⟨_, h, hw ▸ haltedFrom_halt s q _⟩

/-! ### The instructions with a halting case, one equation for each case -/

theorem exec_ret_cons {s : State} {a : Word} {rest : List Word} (h : s.stack = a :: rest) :
    exec .ret s = .next ((s.setStack rest).setPC a) := by
  show execRet s = _
  rw [execRet, h]

theorem exec_ret_nil {s : State} (h : s.stack = []) : exec .ret s = haltAt .ret .stackUnderflow s := by
  show execRet s = _
  rw [execRet, h]

theorem exec_call_below {s : State} (nnn : Addr) (h : s.cfg.stackDepth ≠ some s.stack.length) :
    exec (.call nnn) s = .next ((s.setStack ((s.PC + 2) :: s.stack)).setPC (zextAddr nnn)) :=
  if_neg (mt (stackFull_iff s).mp h)

theorem exec_call_full {s : State} (nnn : Addr) (h : s.cfg.stackDepth = some s.stack.length) :
    exec (.call nnn) s = haltAt (.call nnn) .stackOverflow s :=
  if_pos ((stackFull_iff s).mpr h)

section
variable {x : Reg} {s : State}

theorem exec_skp_key {k : Key} (h : (s.getV x).toNat = k.val) :
    exec (.skp x) s = .next (s.advance (skipIf (s.isHeld k))) := by
  show execSkp x s = _
  rw [execSkp, (keyOfByte_some _ k).mpr h]

theorem exec_sknp_key {k : Key} (h : (s.getV x).toNat = k.val) :
    exec (.sknp x) s = .next (s.advance (skipIf (!s.isHeld k))) := by
  show execSknp x s = _
  rw [execSknp, (keyOfByte_some _ k).mpr h]

theorem exec_skp_noKey (h : 0xF < (s.getV x).toNat) : exec (.skp x) s = haltAt (.skp x) .keyRange s := by
  show execSkp x s = _
  rw [execSkp, (keyOfByte_none _).mpr h]

theorem exec_sknp_noKey (h : 0xF < (s.getV x).toNat) : exec (.sknp x) s = haltAt (.sknp x) .keyRange s := by
  show execSknp x s = _
  rw [execSknp, (keyOfByte_none _).mpr h]

end

/-! ### The opcodes that these halts report -/

theorem encode_call (nnn : Addr) : encode (.call nnn) = BitVec.ofNat 16 (0x2000 + nnn.toNat) :=
  word_eq_ofNat (formA_toNat 0x2 nnn)

theorem formXKK_eq_ofNat (top : Nibble) (x : Reg) (kk : Byte) :
    formXKK top x kk = BitVec.ofNat 16 (top.toNat * 4096 + kk.toNat + 256 * x.val) := by
  apply word_eq_ofNat
  rw [formXKK_toNat]
  omega

theorem encode_skp (x : Reg) : encode (.skp x) = BitVec.ofNat 16 (0xE09E + 256 * x.val) := formXKK_eq_ofNat 0xE x 0x9E

theorem encode_sknp (x : Reg) : encode (.sknp x) = BitVec.ofNat 16 (0xE0A1 + 256 * x.val) := formXKK_eq_ofNat 0xE x 0xA1

/-! ### The statements -/

/-- Settles O16: the pushed address goes to PC as it is, and the halt on an empty stack is the instruction's own. -/
theorem retPopsIntoPC : Obligations.RetPopsIntoPC := by
  unfold Obligations.RetPopsIntoPC
  constructor
  · intro s a rest h
    exact ⟨_, exec_ret_cons h, rfl, rfl, sameBut_setStack_setPC s rest a⟩
  · intro s h
    exact exec_haltAt (exec_ret_nil h) rfl

/-- Settles O17: the zero-extended address has the same value. -/
theorem jpSetsPC : Obligations.JpSetsPC := by
  unfold Obligations.JpSetsPC
  intro nnn s
  exact ⟨s.setPC (zextAddr nnn), rfl, zextAddr_toNat nnn, sameBut_setPC s _⟩

/-- Settles O18: by the two cases of the depth check, which reads the stack before the push. -/
theorem callPushesAndJumps : Obligations.CallPushesAndJumps := by
  unfold Obligations.CallPushesAndJumps
  intro nnn s
  constructor
  · intro h
    have hpush : (s.PC + 2).toNat = (s.PC.toNat + 2) % 2 ^ 16 := BitVec.toNat_add s.PC 2
    exact ⟨_, exec_call_below nnn h, zextAddr_toNat nnn, ⟨s.PC + 2, hpush, rfl⟩, sameBut_setStack_setPC s _ _⟩
  · intro h
    exact exec_haltAt (exec_call_full nnn h) (encode_call nnn)

/-- Settles O20: both are skips, on the comparison and on its negation. -/
theorem byteSkipsCompareTheRegister : Obligations.ByteSkipsCompareTheRegister := by
  unfold Obligations.ByteSkipsCompareTheRegister
  intro x kk s
  constructor
  · have h : exec (.seByte x kk) s = .next (s.advance (skipIf (decide (s.getV x = kk)))) := rfl
    simpa only [decide_eq_true_eq] using exec_skipIf h
  · have h : exec (.sneByte x kk) s = .next (s.advance (skipIf (decide (s.getV x ≠ kk)))) := rfl
    simpa only [decide_eq_true_eq, ne_eq, ite_not] using exec_skipIf h

/-- Settles O21: both are skips, on the comparison and on its negation. -/
theorem registerSkipsCompareTheRegisters : Obligations.RegisterSkipsCompareTheRegisters := by
  unfold Obligations.RegisterSkipsCompareTheRegisters
  intro x y s
  constructor
  · have h : exec (.seReg x y) s = .next (s.advance (skipIf (decide (s.getV x = s.getV y)))) := rfl
    simpa only [decide_eq_true_eq] using exec_skipIf h
  · have h : exec (.sneReg x y) s = .next (s.advance (skipIf (decide (s.getV x ≠ s.getV y)))) := rfl
    simpa only [decide_eq_true_eq, ne_eq, ite_not] using exec_skipIf h

/-- Settles O22: the 16-bit sum is the exact sum, since it cannot wrap. -/
theorem jpV0AddsV0 : Obligations.JpV0AddsV0 := by
  unfold Obligations.JpV0AddsV0
  intro nnn s
  exact ⟨s.setPC (zextAddr nnn + zextByte (s.getV 0)), rfl, zextAddr_add_zextByte_toNat nnn _, sameBut_setPC s _⟩

/-- Settles O23: a key number makes both a skip, on the held bit and on its negation; above 0xF both halt with their opcode. -/
theorem keySkipsReadTheHeldKey : Obligations.KeySkipsReadTheHeldKey := by
  unfold Obligations.KeySkipsReadTheHeldKey
  intro x s
  constructor
  · intro k hk
    constructor
    · exact exec_skipIf (exec_skp_key hk)
    · simpa only [Bool.not_eq_true', ← Bool.not_eq_true, ite_not] using exec_skipIf (exec_sknp_key hk)
  · intro h
    constructor
    · exact exec_haltAt (exec_skp_noKey h) (encode_skp x)
    · exact exec_haltAt (exec_sknp_noKey h) (encode_sknp x)

end Sys2Proof.Machine
end

section
/-! PROOFS. Register loads, arithmetic, logic, shifts and random (spec 42_alu.md R150 to R161). -/

namespace Sys2Proof.Machine

/-! ### What the shared operations of the ALU change -/

/-- One opcode width is two bytes (R103). -/
theorem advance_one_PC_toNat (s : State) : (s.advance 1).PC.toNat = nextPC s := advance_PC_toNat s 1

theorem regsSameBut_setV (s : State) (x : Reg) (b : Byte) : RegsSameBut [x] s (s.setV x b) :=
  fun r hr => getV_setV_ne s x r b (mt List.mem_singleton.mpr hr)

theorem regsSameBut_setResultFlag (s : State) (x : Reg) (a f : Byte) : RegsSameBut [x, VF] s (s.setResultFlag x a f) := by
  intro r hr
  obtain ⟨hx, hf⟩ : r ≠ x ∧ r ≠ VF := by simpa using hr
  exact getV_setResultFlag_ne s x r a f hx hf

theorem sameBut_setV_advance (s : State) (x : Reg) (b : Byte) (n : Nat) : SameBut [.V, .PC] s ((s.setV x b).advance n) := by
  constructor <;> simp

theorem sameBut_setResultFlag_advance (s : State) (x : Reg) (a f : Byte) (n : Nat) :
    SameBut [.V, .PC] s ((s.setResultFlag x a f).advance n) := by
  constructor <;> simp

theorem sameBut_countDraw_setV_advance (s : State) (x : Reg) (b : Byte) (n : Nat) :
    SameBut [.V, .PC, .draws] s ((s.countDraw.setV x b).advance n) := by
  constructor <;> simp

/-! ### The two outcomes that the instructions share -/

/-- An instruction that writes `b` to Vx and goes on changes Vx and PC alone, and Vx then has every property of `b`. -/
theorem exec_setV {i : Instr} {s : State} {x : Reg} {b : Byte} (P : Byte → Prop)
    (h : exec i s = .next ((s.setV x b).advance 1)) (hb : P b) :
    ∃ t, exec i s = .next t ∧ P (t.getV x) ∧ t.PC.toNat = nextPC s ∧ RegsSameBut [x] s t ∧ SameBut [.V, .PC] s t := by
  refine ⟨_, h, ?_, advance_one_PC_toNat _, regsSameBut_setV s x b, sameBut_setV_advance s x b 1⟩
  rwa [advance_getV, getV_setV_self]

/-- An instruction that writes a result to Vx, then a flag to VF, and goes on: VF has the flag whatever x is, Vx the result
unless it is VF, and but for these and PC nothing changes (R22, R23). -/
theorem exec_setResultFlag {i : Instr} {s : State} {x : Reg} {a f : Byte} (P Q : Byte → Prop)
    (h : exec i s = .next ((s.setResultFlag x a f).advance 1)) (ha : P a) (hf : Q f) :
    ∃ t, exec i s = .next t ∧ (x ≠ VF → P (t.getV x)) ∧ Q (t.getV VF) ∧ t.PC.toNat = nextPC s ∧
      RegsSameBut [x, VF] s t ∧ SameBut [.V, .PC] s t := by
  refine ⟨_, h, fun hx => ?_, ?_, advance_one_PC_toNat _, regsSameBut_setResultFlag s x a f,
    sameBut_setResultFlag_advance s x a f 1⟩
  · rwa [advance_getV, getV_setResultFlag_self s x a f hx]
  · rwa [advance_getV, getV_setResultFlag_VF]

/-! ### The results and the flags as numbers -/

theorem byte_sub_toNat (a b : Byte) : (a - b).toNat = (a.toNat + 256 - b.toNat) % 256 := by
  have := b.isLt
  rw [BitVec.toNat_sub]
  congr 1
  omega

theorem byte_shiftRight_one_toNat (a : Byte) : (a >>> 1).toNat = a.toNat / 2 := by
  rw [BitVec.toNat_ushiftRight, Nat.shiftRight_one]

theorem byte_shiftLeft_one_toNat (a : Byte) : (a <<< 1).toNat = a.toNat * 2 % 256 := by
  rw [BitVec.toNat_shiftLeft, Nat.shiftLeft_eq]

theorem flagByte_decide (p : Prop) [Decidable p] : flagByte (decide p) = if p then 1 else 0 := by
  simp only [flagByte, decide_eq_true_eq]

/-- The flag of a bit is that bit as a number. -/
theorem flagByte_getLsbD_toNat (a : Byte) (k : Nat) : (flagByte (a.getLsbD k)).toNat = a.toNat / 2 ^ k % 2 := by
  rw [BitVec.getLsbD, Nat.testBit_eq_decide_div_mod_eq, flagByte_decide]
  split
  · next h => exact h.symm
  · next h => exact (Nat.mod_two_ne_one.mp h).symm

theorem shrFlag_toNat (a : Byte) : (shrFlag a).toNat = a.toNat % 2 := by
  rw [shrFlag, flagByte_getLsbD_toNat, Nat.pow_zero, Nat.div_one]

/-- Bit 7 is the highest of a byte, so that what stands from it up is the bit alone. -/
theorem shlFlag_toNat (a : Byte) : (shlFlag a).toNat = a.toNat / 128 := by
  have := a.isLt
  rw [shlFlag, flagByte_getLsbD_toNat]
  omega

/-! ### The statements -/

/-- Settles O24: both write one register, the second the sum modulo 256. -/
theorem immediateFormsWriteVx : Obligations.ImmediateFormsWriteVx := by
  unfold Obligations.ImmediateFormsWriteVx
  intro x kk s
  constructor
  · exact exec_setV (· = kk) rfl rfl
  · exact exec_setV (·.toNat = ((s.getV x).toNat + kk.toNat) % 256) rfl (BitVec.toNat_add _ _)

/-- Settles O25: all four write one register, the last three its bits as the operation on bit vectors gives them. -/
theorem copyAndLogicWriteVx : Obligations.CopyAndLogicWriteVx := by
  unfold Obligations.CopyAndLogicWriteVx
  intro x y s
  refine ⟨?_, ?_, ?_, ?_⟩
  · exact exec_setV (· = s.getV y) rfl rfl
  · exact exec_setV (fun v => ∀ b, v.getLsbD b = ((s.getV x).getLsbD b || (s.getV y).getLsbD b)) rfl
      (fun _ => BitVec.getLsbD_or)
  · exact exec_setV (fun v => ∀ b, v.getLsbD b = ((s.getV x).getLsbD b && (s.getV y).getLsbD b)) rfl
      (fun _ => BitVec.getLsbD_and)
  · exact exec_setV (fun v => ∀ b, v.getLsbD b = ((s.getV x).getLsbD b ^^ (s.getV y).getLsbD b)) rfl
      (fun _ => BitVec.getLsbD_xor)

/-- Settles O26: the result and the flag are both taken from the old registers, and the flag is written last. -/
theorem addWritesSumThenCarry : Obligations.AddWritesSumThenCarry := by
  unfold Obligations.AddWritesSumThenCarry
  intro x y s
  exact exec_setResultFlag (·.toNat = ((s.getV x).toNat + (s.getV y).toNat) % 256)
    (· = if (s.getV x).toNat + (s.getV y).toNat > 255 then 1 else 0) rfl (BitVec.toNat_add _ _) (flagByte_decide _)

/-- Settles O27: as for the sum, with the operands of the difference and of the comparison exchanged in SUBN. -/
theorem subtractsWriteDifferenceThenComparison : Obligations.SubtractsWriteDifferenceThenComparison := by
  unfold Obligations.SubtractsWriteDifferenceThenComparison
  intro x y s
  constructor
  · exact exec_setResultFlag (·.toNat = ((s.getV x).toNat + 256 - (s.getV y).toNat) % 256)
      (· = if (s.getV x).toNat > (s.getV y).toNat then 1 else 0) rfl (byte_sub_toNat _ _) (flagByte_decide _)
  · exact exec_setResultFlag (·.toNat = ((s.getV y).toNat + 256 - (s.getV x).toNat) % 256)
      (· = if (s.getV y).toNat > (s.getV x).toNat then 1 else 0) rfl (byte_sub_toNat _ _) (flagByte_decide _)

/-- Settles O28: the shifted byte and the bit shifted out, as the quotients and remainders they are; y is not read. -/
theorem shiftsWriteResultThenShiftedOutBit : Obligations.ShiftsWriteResultThenShiftedOutBit := by
  unfold Obligations.ShiftsWriteResultThenShiftedOutBit
  intro x y s
  constructor
  · exact exec_setResultFlag (·.toNat = (s.getV x).toNat / 2) (·.toNat = (s.getV x).toNat % 2) rfl
      (byte_shiftRight_one_toNat _) (shrFlag_toNat _)
  · exact exec_setResultFlag (·.toNat = (s.getV x).toNat * 2 % 256) (·.toNat = (s.getV x).toNat / 128) rfl
      (byte_shiftLeft_one_toNat _) (shlFlag_toNat _)

/-- Settles O29: the write is that of one register after the draw is counted, which the registers and PC do not see. -/
theorem rndWritesAMaskedFreeByte : Obligations.RndWritesAMaskedFreeByte := by
  unfold Obligations.RndWritesAMaskedFreeByte
  intro x kk s
  have hx : ((s.countDraw.setV x (Config.drawByte s.draws &&& kk)).advance 1).getV x = Config.drawByte s.draws &&& kk := by
    rw [advance_getV, getV_setV_self]
  refine ⟨_, rfl, fun b => ?_, rfl, advance_one_PC_toNat _, regsSameBut_setV s.countDraw x _,
    sameBut_countDraw_setV_advance s x _ 1⟩
  rw [hx, BitVec.getLsbD_and]

end Sys2Proof.Machine
end

section
/-! PROOFS. The address register and memory transfers (spec 43_index_memory.md R180 to R185). -/

namespace Sys2Proof.Machine

/-! ### What the shared operations change -/

theorem sameBut_setI_advance (s : State) (a : Word) (n : Nat) : SameBut [.I, .PC] s ((s.setI a).advance n) := by
  constructor <;> simp

theorem sameBut_setMem_advance (s : State) (m : Memory) (n : Nat) : SameBut [.mem, .PC] s ((s.setMem m).advance n) := by
  constructor <;> simp

theorem sameBut_loadRegBlock_advance (s : State) (x : Reg) (a n : Nat) :
    SameBut [.V, .PC] s ((s.loadRegBlock x a).advance n) := by
  constructor <;> simp

/-- After a run of byte stores within memory an address in the run reads its own byte, and every other what it read before:
the first store is not undone by the rest, which lies above it. -/
theorem read_writeBytes (c : Nat) : ∀ {bytes : List Byte} {m : Memory} {a : Nat}, m.wf = true → a + bytes.length ≤ 0x1000 →
    (m.writeBytes a bytes).read c = if a ≤ c ∧ c < a + bytes.length then bytes.getD (c - a) 0 else m.read c
  | [], m, a, _, _ => by
    rw [if_neg (by simp), Memory.writeBytes]
  | b :: bytes, m, a, hm, hl => by
    rw [List.length_cons] at hl ⊢
    have ih := read_writeBytes c (bytes := bytes) (a := a + 1) (write_wf hm (a := a) (by omega) b) (by omega)
    rw [Memory.writeBytes, ih, read_write hm]
    rcases Nat.lt_trichotomy c a with hc | rfl | hc
    · rw [if_neg (by omega), if_neg (by omega), if_neg (by omega)]
    · rw [if_neg (by omega), if_pos rfl, if_pos (by omega), Nat.sub_self, List.getD_cons_zero]
    · obtain ⟨k, rfl⟩ := Nat.exists_eq_add_of_lt hc
      have hk : a + k + 1 - a = k + 1 := by omega
      have hk' : a + k + 1 - (a + 1) = k := by omega
      rw [hk, hk', List.getD_cons_succ, if_neg (by omega : a + k + 1 ≠ a)]
      exact if_congr (by omega) rfl rfl

/-! ### The outcomes that the instructions share -/

/-- An instruction that writes `a` to I and goes on changes I and PC alone. -/
theorem exec_setI {i : Instr} {s : State} {a : Word} {v : Nat} (h : exec i s = .next ((s.setI a).advance 1))
    (ha : a.toNat = v) : ∃ t, exec i s = .next t ∧ t.I.toNat = v ∧ t.PC.toNat = nextPC s ∧ SameBut [.I, .PC] s t :=
  ⟨_, h, ha, advance_one_PC_toNat _, sameBut_setI_advance s a 1⟩

section
variable {i : Instr} {s : State} {bytes : List Byte} {n : Nat} {w : Word}

/-- A store of n + 1 bytes that passes its checks puts byte k at I + k and changes nothing else but PC. -/
theorem exec_store_stores (h : exec i s = storeAtI i bytes s) (hn : bytes.length = n + 1) (hm : s.mem.wf = true)
    (hr : s.I.toNat + n < 0x1000) (hf : ∀ k, k ≤ n → inFont s.cfg (s.I.toNat + k) = false) :
    ∃ t, exec i s = .next t ∧ (∀ k, k ≤ n → t.mem.read (s.I.toNat + k) = bytes.getD k 0) ∧
      (∀ a, a < s.I.toNat ∨ s.I.toNat + n < a → t.mem.read a = s.mem.read a) ∧
      t.PC.toNat = nextPC s ∧ SameBut [.mem, .PC] s t := by
  have hc : storeCheck s.cfg s.I.toNat bytes.length = none := by
    rw [storeCheck_none, hn]
    exact ⟨.inr (by omega), fun k hk => hf k (Nat.le_of_lt_succ hk)⟩
  have hs : exec i s = .next ((s.setMem (s.mem.writeBytes s.I.toNat bytes)).advance 1) := by
    rw [h, storeAtI, hc]
  have hread := fun c => read_writeBytes c (bytes := bytes) (a := s.I.toNat) hm (by omega)
  refine ⟨_, hs, fun k hk => ?_, fun a ha => ?_, advance_one_PC_toNat _, sameBut_setMem_advance s _ 1⟩
  · rw [advance_mem, setMem_mem, hread, if_pos (by omega), Nat.add_sub_cancel_left]
  · rw [advance_mem, setMem_mem, hread, if_neg (by omega)]

/-- A store halts with the reason its check gives. -/
theorem exec_store_halts {q : HaltReason} (h : exec i s = storeAtI i bytes s)
    (hc : storeCheck s.cfg s.I.toNat bytes.length = some q) (hw : encode i = w) :
    ∃ t, exec i s = .next t ∧ HaltedFrom s t q (some w) :=
  exec_haltAt (by rw [h, storeAtI, hc]) hw

/-- A store of n + 1 bytes in memory of which one lies in the digit region halts there, before any write. -/
theorem exec_store_fontWrite (h : exec i s = storeAtI i bytes s) (hn : bytes.length = n + 1) (hw : encode i = w)
    (hr : s.I.toNat + n < 0x1000) (hf : ∃ k, k ≤ n ∧ inFont s.cfg (s.I.toNat + k) = true) :
    ∃ t, exec i s = .next t ∧ HaltedFrom s t .fontWrite (some w) := by
  obtain ⟨k, hk, hkf⟩ := hf
  refine exec_store_halts h ((storeCheck_some ..).mpr (.inr ⟨rfl, .inr ?_, k, ?_, hkf⟩)) hw <;> omega

/-- A store of n + 1 bytes that reaches past memory halts for the range, whatever the digit region is (R242). -/
theorem exec_store_memRange (h : exec i s = storeAtI i bytes s) (hn : bytes.length = n + 1) (hw : encode i = w)
    (hr : 0x1000 ≤ s.I.toNat + n) : ∃ t, exec i s = .next t ∧ HaltedFrom s t .memRange (some w) := by
  refine exec_store_halts h ((storeCheck_some ..).mpr (.inl ⟨rfl, ?_, ?_⟩)) hw <;> omega

end

/-! ### The instructions with a halting case, one equation for each case -/

section
variable {x : Reg} {s : State}

theorem exec_ldFVx_digit (h : (s.getV x).toNat ≤ 0xF) :
    exec (.ldFVx x) s = .next ((s.setI (glyphAddr s.cfg.fontBase (s.getV x).toNat)).advance 1) := by
  show execLdFVx x s = _
  rw [execLdFVx, (digitOfByte_some _ _).mpr ⟨h, rfl⟩]

theorem exec_ldFVx_noDigit (h : 0xF < (s.getV x).toNat) : exec (.ldFVx x) s = haltAt (.ldFVx x) .fontRange s := by
  show execLdFVx x s = _
  rw [execLdFVx, (digitOfByte_none _).mpr h]

theorem exec_ldVxMem_in_range (h : s.I.toNat + x.val < 0x1000) :
    exec (.ldVxMem x) s = .next ((s.loadRegBlock x s.I.toNat).advance 1) := by
  show execLdVxMem x s = _
  rw [execLdVxMem, (loadCheck_none ..).mpr (.inr (by omega))]

theorem exec_ldVxMem_out_of_range (h : 0x1000 ≤ s.I.toNat + x.val) :
    exec (.ldVxMem x) s = haltAt (.ldVxMem x) .memRange s := by
  show execLdVxMem x s = _
  rw [execLdVxMem, (loadCheck_some ..).mpr ⟨rfl, by omega, by omega⟩]

end

/-! ### Addresses and digits as numbers, and the opcodes that the halts report -/

theorem add_zextByte_toNat (a : Word) (b : Byte) : (a + zextByte b).toNat = (a.toNat + b.toNat) % 2 ^ 16 := by
  rw [BitVec.toNat_add, zextByte_toNat]

/-- With the digit region below the program region no glyph's address wraps (R31). -/
theorem glyphAddr_toNat {c : Config} (hc : c.wf = true) {d : Nat} (hd : d ≤ 0xF) :
    (glyphAddr c.fontBase d).toNat = c.fontBase + 5 * d := by
  have hb : c.fontBase + 80 ≤ 0x200 := of_decide_eq_true hc
  rw [glyphAddr, BitVec.toNat_ofNat]
  omega

/-- Each decimal digit of a byte fits in a byte: the hundreds are at most 2. -/
theorem decimalDigits_getD_toNat (v : Byte) :
    ((decimalDigits v).getD 0 0).toNat = v.toNat / 100 ∧ ((decimalDigits v).getD 1 0).toNat = v.toNat / 10 % 10 ∧
      ((decimalDigits v).getD 2 0).toNat = v.toNat % 10 := by
  have := v.isLt
  simp only [decimalDigits, List.getD_cons_zero, List.getD_cons_succ, BitVec.toNat_ofNat]
  omega

theorem encode_ldFVx (x : Reg) : encode (.ldFVx x) = BitVec.ofNat 16 (0xF029 + 256 * x.val) := formXKK_eq_ofNat 0xF x 0x29

theorem encode_ldBVx (x : Reg) : encode (.ldBVx x) = BitVec.ofNat 16 (0xF033 + 256 * x.val) := formXKK_eq_ofNat 0xF x 0x33

theorem encode_ldMemVx (x : Reg) : encode (.ldMemVx x) = BitVec.ofNat 16 (0xF055 + 256 * x.val) := formXKK_eq_ofNat 0xF x 0x55

theorem encode_ldVxMem (x : Reg) : encode (.ldVxMem x) = BitVec.ofNat 16 (0xF065 + 256 * x.val) := formXKK_eq_ofNat 0xF x 0x65

/-! ### The statements -/

/-- Settles O31: both write I alone, the second the sum of 16-bit words, which wraps. -/
theorem indexIsLoadedAndAdded : Obligations.IndexIsLoadedAndAdded := by
  unfold Obligations.IndexIsLoadedAndAdded
  constructor
  · intro nnn s
    exact exec_setI rfl (zextAddr_toNat nnn)
  · intro x s
    exact exec_setI rfl (add_zextByte_toNat s.I (s.getV x))

/-- Settles O32: a digit's glyph address does not wrap, and a byte above 0xF is no digit. -/
theorem ldFPointsAtTheGlyph : Obligations.LdFPointsAtTheGlyph := by
  unfold Obligations.LdFPointsAtTheGlyph
  intro x s hc
  constructor
  · intro h
    exact exec_setI (exec_ldFVx_digit h) (glyphAddr_toNat hc h)
  · intro h
    exact exec_haltAt (exec_ldFVx_noDigit h) (encode_ldFVx x)

/-- Settles O33: the store of three bytes, which are the decimal digits. -/
theorem ldBStoresDecimalDigits : Obligations.LdBStoresDecimalDigits := by
  unfold Obligations.LdBStoresDecimalDigits
  intro x s hm
  have h : exec (.ldBVx x) s = storeAtI (.ldBVx x) (decimalDigits (s.getV x)) s := rfl
  refine ⟨fun hr hf => ?_, exec_store_fontWrite h rfl (encode_ldBVx x), exec_store_memRange h rfl (encode_ldBVx x)⟩
  obtain ⟨t, ht, hread, hrest⟩ := exec_store_stores (n := 2) h rfl hm hr hf
  obtain ⟨hundreds, tens, ones⟩ := decimalDigits_getD_toNat (s.getV x)
  refine ⟨t, ht, ?_, ?_, ?_, hrest⟩
  · exact (congrArg BitVec.toNat (hread 0 (by decide))).trans hundreds
  · exact (congrArg BitVec.toNat (hread 1 (by decide))).trans tens
  · exact (congrArg BitVec.toNat (hread 2 (by decide))).trans ones

/-- Settles O34: the store of x + 1 bytes, of which byte r is Vr. -/
theorem ldMemStoresTheRegisterBlock : Obligations.LdMemStoresTheRegisterBlock := by
  unfold Obligations.LdMemStoresTheRegisterBlock
  intro x s hm
  have h : exec (.ldMemVx x) s = storeAtI (.ldMemVx x) (s.regBlock x) s := rfl
  have hn := regBlock_length s x
  refine ⟨fun hr hf => ?_, exec_store_fontWrite h hn (encode_ldMemVx x), exec_store_memRange h hn (encode_ldMemVx x)⟩
  obtain ⟨t, ht, hread, hrest⟩ := exec_store_stores h hn hm hr hf
  exact ⟨t, ht, fun r hx => (hread r.val hx).trans (regBlock_getD s x r hx), hrest⟩

/-- Settles O35: the loaded block in range holds memory's bytes up to Vx and the old registers above it; out of range it halts. -/
theorem ldVxMemLoadsTheRegisterBlock : Obligations.LdVxMemLoadsTheRegisterBlock := by
  unfold Obligations.LdVxMemLoadsTheRegisterBlock
  intro x s
  constructor
  · intro hr
    refine ⟨_, exec_ldVxMem_in_range hr, fun r hx => ?_, fun r hx => ?_, advance_one_PC_toNat _,
      sameBut_loadRegBlock_advance s x _ 1⟩
    · rw [advance_getV, getV_loadRegBlock, if_pos hx]
    · rw [advance_getV, getV_loadRegBlock, if_neg (not_le_of_gt hx)]
  · intro hr
    exact exec_haltAt (exec_ldVxMem_out_of_range hr) (encode_ldVxMem x)

end Sys2Proof.Machine
end

section
/-! PROOFS. Timer and keyboard instructions (spec 44_timers_keys.md R200 to R203). -/

namespace Sys2Proof.Machine

/-! ### What the shared operations change -/

theorem SameBut.refl (parts : List Part) (s : State) : SameBut parts s s := by
  constructor <;> intros <;> rfl

theorem sameBut_setDT_advance (s : State) (b : Byte) (n : Nat) : SameBut [.DT, .PC] s ((s.setDT b).advance n) := by
  constructor <;> simp

theorem sameBut_setST_advance (s : State) (b : Byte) (n : Nat) : SameBut [.ST, .PC] s ((s.setST b).advance n) := by
  constructor <;> simp

theorem sameBut_setLatch_setV_advance (s : State) (k : Option Key) (x : Reg) (b : Byte) (n : Nat) :
    SameBut [.V, .PC, .latch] s (((s.setLatch k).setV x b).advance n) := by
  constructor <;> simp

theorem setLatch_eq_self {s : State} {k : Option Key} (h : s.latch = k) : s.setLatch k = s := by
  subst h
  rfl

theorem advance_zero (s : State) : s.advance 0 = s := by
  rw [State.advance, Nat.mul_zero, BitVec.add_zero]

/-! ### LD Vx, K: one equation for each case of the latch (R201) -/

theorem exec_ldVxK_latched {s : State} {k : Key} (x : Reg) (h : s.latch = some k) :
    exec (.ldVxK x) s = .next (((s.setLatch none).setV x (byteOfKey k)).advance 1) := by
  show execLdVxK x s = _
  rw [execLdVxK, h]

/-- With no key latched the wait is no change at all: clearing an empty latch and advancing by 0 give back the state. -/
theorem exec_ldVxK_waits {s : State} (x : Reg) (h : s.latch = none) : exec (.ldVxK x) s = .next s := by
  show execLdVxK x s = _
  simp only [execLdVxK, h]
  rw [setLatch_eq_self h, advance_zero]

/-! ### The statements -/

/-- Settles O40: the write of one register, with the timer's value. -/
theorem ldVxDTReadsTheTimer : Obligations.LdVxDTReadsTheTimer := by
  unfold Obligations.LdVxDTReadsTheTimer
  intro x s
  exact exec_setV (· = s.DT) rfl rfl

/-- Settles O41: by the two cases of the latch; a latched key fits in a byte, and the wait gives back the state itself. -/
theorem ldVxKTakesTheLatchOrWaits : Obligations.LdVxKTakesTheLatchOrWaits := by
  unfold Obligations.LdVxKTakesTheLatchOrWaits
  intro x s
  constructor
  · intro k h
    refine ⟨_, exec_ldVxK_latched x h, ?_, rfl, advance_one_PC_toNat _, regsSameBut_setV (s.setLatch none) x _,
      sameBut_setLatch_setV_advance s none x _ 1⟩
    rw [advance_getV, getV_setV_self, byteOfKey_toNat]
  · intro h
    exact ⟨s, exec_ldVxK_waits x h, SameBut.refl [] s⟩

/-- Settles O42: both write one timer and go on. -/
theorem timersAreSetFromVx : Obligations.TimersAreSetFromVx := by
  unfold Obligations.TimersAreSetFromVx
  intro x s
  constructor
  · exact ⟨_, rfl, rfl, advance_one_PC_toNat _, sameBut_setDT_advance s _ 1⟩
  · exact ⟨_, rfl, rfl, advance_one_PC_toNat _, sameBut_setST_advance s _ 1⟩

end Sys2Proof.Machine
end

section
/-! PROOFS. The display instructions (spec 45_display.md R220 to R225). -/

namespace Sys2Proof.Machine

/-! ### What the shared operations change -/

theorem sameBut_setDisp_advance (s : State) (d : Display) (n : Nat) : SameBut [.Disp, .PC] s ((s.setDisp d).advance n) := by
  constructor <;> simp

theorem flagByte_eq_one_iff (b : Bool) : flagByte b = 1 ↔ b = true := by
  cases b <;> decide

theorem flagByte_eq_one_or_zero (b : Bool) : flagByte b = 1 ∨ flagByte b = 0 := by
  cases b <;> decide

/-! ### The state after a drawing -/

/-- DRW's outcome for a new display and whether there was a collision: VF is written last (R221). -/
def State.showSprite (s : State) (drawn : Display × Bool) : State :=
  ((s.setDisp drawn.1).setV VF (flagByte drawn.2)).advance 1

theorem showSprite_pixel (s : State) (drawn : Display × Bool) (r : Fin 32) (c : Fin 64) :
    (s.showSprite drawn).pixel r c = Display.pixel drawn.1 r c := rfl

theorem showSprite_getV_VF (s : State) (drawn : Display × Bool) : (s.showSprite drawn).getV VF = flagByte drawn.2 := by
  rw [State.showSprite, advance_getV, getV_setV_self]

theorem showSprite_PC_toNat (s : State) (drawn : Display × Bool) : (s.showSprite drawn).PC.toNat = nextPC s :=
  advance_one_PC_toNat _

theorem regsSameBut_showSprite (s : State) (drawn : Display × Bool) : RegsSameBut [VF] s (s.showSprite drawn) :=
  regsSameBut_setV (s.setDisp drawn.1) VF _

theorem sameBut_showSprite (s : State) (drawn : Display × Bool) : SameBut [.Disp, .V, .PC] s (s.showSprite drawn) := by
  constructor <;> simp [State.showSprite]

/-! ### DRW: one equation for each case of the range check, and the opcode its halt reports -/

section
variable {x y : Reg} {n : Nibble} {s : State}

theorem exec_drw_in_range (h : n.toNat = 0 ∨ s.I.toNat + n.toNat - 1 < 0x1000) :
    exec (.drw x y n) s = .next (s.showSprite
      (drawSprite (startCol (s.getV x)) (startRow (s.getV y)) (s.mem.readBytes s.I.toNat n.toNat) s.Disp)) := by
  show execDrw x y n s = _
  rw [execDrw, (loadCheck_none ..).mpr (by omega)]
  rfl

theorem exec_drw_out_of_range (hn : 0 < n.toNat) (h : 0x1000 ≤ s.I.toNat + n.toNat - 1) :
    exec (.drw x y n) s = haltAt (.drw x y n) .memRange s := by
  show execDrw x y n s = _
  rw [execDrw, (loadCheck_some ..).mpr ⟨rfl, by omega, by omega⟩]

end

theorem encode_drw (x y : Reg) (n : Nibble) :
    encode (.drw x y n) = BitVec.ofNat 16 (0xD000 + 256 * x.val + 16 * y.val + n.toNat) := by
  have hw : (encode (.drw x y n)).toNat = 0xD * 4096 + x.val * 256 + y.val * 16 + n.toNat :=
    nibbles_toNat 0xD (nibbleOfReg x) (nibbleOfReg y) n
  exact word_eq_ofNat (by omega)

/-! ### The statements -/

/-- Settles O49: the cleared display has no lit pixel, and VF is not written. -/
theorem clsClearsEveryPixel : Obligations.ClsClearsEveryPixel := by
  unfold Obligations.ClsClearsEveryPixel
  intro s
  exact ⟨_, rfl, pixel_clear, advance_one_PC_toNat _, sameBut_setDisp_advance s _ 1⟩

/-- Settles O50: a sprite of at most 15 bytes does not come back to its first row, so that drawing it byte by byte flips each of
its pixels once and finds lit exactly those that were lit before; bytes past memory halt. -/
theorem drwFlipsTheSpritesPixels : Obligations.DrwFlipsTheSpritesPixels := by
  unfold Obligations.DrwFlipsTheSpritesPixels
  intro x y n s
  constructor
  · intro hr
    have hl : (s.mem.readBytes s.I.toNat n.toNat).length ≤ 32 := by
      have := n.isLt
      rw [readBytes_length]
      omega
    obtain ⟨hflip, hcollide⟩ := drawSprite_spec (startCol (s.getV x)) _ (startRow (s.getV y)) s.Disp hl
    refine ⟨_, exec_drw_in_range hr, fun r c => ?_, ?_, ?_, showSprite_PC_toNat s _, regsSameBut_showSprite s _,
      sameBut_showSprite s _⟩
    · rw [showSprite_pixel]
      exact hflip r c
    · rw [showSprite_getV_VF]
      exact flagByte_eq_one_or_zero _
    · rw [showSprite_getV_VF, flagByte_eq_one_iff]
      exact hcollide
  · intro hn hr
    exact exec_haltAt (exec_drw_out_of_range hn hr) (encode_drw x y n)

end Sys2Proof.Machine
end

section
/-! PROOFS. The encoder gives back the word that a row of the table builds its instruction from (spec 30_encoding.md R71, R72, R75). -/

namespace Sys2Proof

/-! ### A word as its fields -/

theorem formA_of_fields (op : Word) : formA (op.extractLsb' 12 4) (fieldNNN op) = op :=
  (BitVec.extractLsb'_append_extractLsb'_eq_extractLsb' rfl).trans BitVec.extractLsb'_eq_self

theorem formXKK_of_fields (op : Word) : formXKK (op.extractLsb' 12 4) (fieldX op) (fieldKK op) = op := by
  have hx : op.extractLsb' 12 4 ++ nibbleOfReg (fieldX op) = op.extractLsb' 8 8 :=
    BitVec.extractLsb'_append_extractLsb'_eq_extractLsb' rfl
  rw [formXKK, hx]
  exact (BitVec.extractLsb'_append_extractLsb'_eq_extractLsb' rfl).trans BitVec.extractLsb'_eq_self

theorem formXYN_of_fields (op : Word) : formXYN (op.extractLsb' 12 4) (fieldX op) (fieldYBits op) (fieldN op) = op :=
  (word_eq_nibbles op).symm

/-- Where a row's mask has every bit of a slice, a word that the row accepts has that slice of the row's expected value. -/
theorem Descriptor.slice_of_accepts {d : Descriptor} {op : Word} {k len : Nat} (h : d.accepts op = true)
    (hm : d.mask.extractLsb' k len = BitVec.allOnes len) : op.extractLsb' k len = d.expected.extractLsb' k len := by
  have he : op &&& d.mask = d.expected := eq_of_beq h
  rw [← he, BitVec.extractLsb'_and, hm, BitVec.and_allOnes]

/-! ### The rows, one lemma for each format -/

/-- Each word that the row accepts is the encoding of the instruction that the row builds from it. -/
def Descriptor.Reencodes (d : Descriptor) : Prop := ∀ op, d.accepts op = true → encode (d.build op) = op

namespace Descriptor.Reencodes

variable {d : Descriptor}

theorem ofFixed (hm : d.mask.extractLsb' 0 16 = BitVec.allOnes 16) (hb : ∀ op, encode (d.build op) = d.expected) :
    d.Reencodes := by
  intro op h
  have hall := slice_of_accepts h hm
  rw [BitVec.extractLsb'_eq_self, BitVec.extractLsb'_eq_self] at hall
  rw [hb, hall]

/-- All other formats have a fixed top nibble. -/
theorem ofA (ht : d.mask.extractLsb' 12 4 = BitVec.allOnes 4)
    (hb : ∀ op, encode (d.build op) = formA (d.expected.extractLsb' 12 4) (fieldNNN op)) : d.Reencodes := by
  intro op h
  rw [hb, ← slice_of_accepts h ht, formA_of_fields]

theorem ofXKK (ht : d.mask.extractLsb' 12 4 = BitVec.allOnes 4)
    (hb : ∀ op, encode (d.build op) = formXKK (d.expected.extractLsb' 12 4) (fieldX op) (fieldKK op)) :
    d.Reencodes := by
  intro op h
  rw [hb, ← slice_of_accepts h ht, formXKK_of_fields]

/-- Format X: the byte is a fixed sub-operation. -/
theorem ofX (ht : d.mask.extractLsb' 12 4 = BitVec.allOnes 4) (hk : d.mask.extractLsb' 0 8 = BitVec.allOnes 8)
    (hb : ∀ op, encode (d.build op) =
      formXKK (d.expected.extractLsb' 12 4) (fieldX op) (d.expected.extractLsb' 0 8)) : d.Reencodes := by
  intro op h
  rw [hb, ← slice_of_accepts h ht, ← slice_of_accepts h hk]
  exact formXKK_of_fields op

theorem ofXYN (ht : d.mask.extractLsb' 12 4 = BitVec.allOnes 4)
    (hb : ∀ op, encode (d.build op) =
      formXYN (d.expected.extractLsb' 12 4) (fieldX op) (fieldYBits op) (fieldN op)) : d.Reencodes := by
  intro op h
  rw [hb, ← slice_of_accepts h ht, formXYN_of_fields]

/-- Format XY: the low nibble is fixed. The nibble y is read from the word whether the mask fixes it or not. -/
theorem ofXY (ht : d.mask.extractLsb' 12 4 = BitVec.allOnes 4) (hn : d.mask.extractLsb' 0 4 = BitVec.allOnes 4)
    (hb : ∀ op, encode (d.build op) =
      formXYN (d.expected.extractLsb' 12 4) (fieldX op) (fieldYBits op) (d.expected.extractLsb' 0 4)) :
    d.Reencodes := by
  intro op h
  rw [hb, ← slice_of_accepts h ht, ← slice_of_accepts h hn]
  exact formXYN_of_fields op

end Descriptor.Reencodes

/-! ### The table (spec 30_encoding.md R76) -/

theorem rowsControl_reencode : ∀ d ∈ rowsControl, d.Reencodes := by
  simp only [rowsControl, List.forall_mem_cons]
  exact ⟨.ofFixed rfl fun _ => rfl, .ofFixed rfl fun _ => rfl, .ofA rfl fun _ => rfl, .ofA rfl fun _ => rfl,
    .ofXKK rfl fun _ => rfl, .ofXKK rfl fun _ => rfl, .ofXY rfl rfl fun _ => rfl, .ofXKK rfl fun _ => rfl,
    .ofXKK rfl fun _ => rfl, List.forall_mem_nil _⟩

theorem rowsLogic_reencode : ∀ d ∈ rowsLogic, d.Reencodes := by
  simp only [rowsLogic, List.forall_mem_cons]
  exact ⟨.ofXY rfl rfl fun _ => rfl, .ofXY rfl rfl fun _ => rfl, .ofXY rfl rfl fun _ => rfl,
    .ofXY rfl rfl fun _ => rfl, .ofXY rfl rfl fun _ => rfl, .ofXY rfl rfl fun _ => rfl, List.forall_mem_nil _⟩

/-- Under either value of SHIFT_Y_DONTCARE the shifts' masks fix the top and the low nibble. -/
theorem rowsShift_reencode (yDontCare : Bool) : ∀ d ∈ rowsShift yDontCare, d.Reencodes := by
  simp only [rowsShift, List.forall_mem_cons]
  cases yDontCare
  all_goals exact ⟨.ofXY rfl rfl fun _ => rfl, .ofXY rfl rfl fun _ => rfl, .ofXY rfl rfl fun _ => rfl, List.forall_mem_nil _⟩

theorem rowsMiddle_reencode : ∀ d ∈ rowsMiddle, d.Reencodes := by
  simp only [rowsMiddle, List.forall_mem_cons]
  exact ⟨.ofXY rfl rfl fun _ => rfl, .ofA rfl fun _ => rfl, .ofA rfl fun _ => rfl, .ofXKK rfl fun _ => rfl,
    .ofXYN rfl fun _ => rfl, .ofX rfl rfl fun _ => rfl, .ofX rfl rfl fun _ => rfl, List.forall_mem_nil _⟩

theorem rowsF_reencode : ∀ d ∈ rowsF, d.Reencodes := by
  simp only [rowsF, List.forall_mem_cons]
  exact ⟨.ofX rfl rfl fun _ => rfl, .ofX rfl rfl fun _ => rfl, .ofX rfl rfl fun _ => rfl, .ofX rfl rfl fun _ => rfl,
    .ofX rfl rfl fun _ => rfl, .ofX rfl rfl fun _ => rfl, .ofX rfl rfl fun _ => rfl, .ofX rfl rfl fun _ => rfl,
    .ofX rfl rfl fun _ => rfl, List.forall_mem_nil _⟩

theorem table_reencodes (yDontCare : Bool) : ∀ d ∈ table yDontCare, d.Reencodes := by
  simp only [table, List.forall_mem_append]
  exact ⟨⟨⟨⟨rowsControl_reencode, rowsLogic_reencode⟩, rowsShift_reencode yDontCare⟩, rowsMiddle_reencode⟩, rowsF_reencode⟩

/-- What the scan finds is built by a row that accepts the word. -/
theorem exists_row_of_scan {rows : List Descriptor} {op : Word} {i : Instr} (h : scan rows op = some i) :
    ∃ d ∈ rows, d.accepts op = true ∧ d.build op = i := by
  induction rows with
  | nil => cases h
  | cons d rows ih =>
    rw [scan_cons] at h
    split at h
    · next ha => exact ⟨d, List.mem_cons_self, ha, Option.some.inj h⟩
    · obtain ⟨d', hd', hrow⟩ := ih h
      exact ⟨d', List.mem_cons_of_mem d hd', hrow⟩

/-- Every decoded word is the encoding of what it decodes to. -/
theorem encode_of_decodeWord {yDontCare : Bool} {op : Word} {i : Instr} (h : decodeWord yDontCare op = some i) :
    encode i = op := by
  obtain ⟨d, hd, ha, rfl⟩ := exists_row_of_scan h
  exact table_reencodes yDontCare d hd op ha

end Sys2Proof
end

section
/-! PROOFS. Halts and the steps of the timer agents and the host (spec 60_exceptions.md R240 to R247). -/

namespace Sys2Proof.Machine

/-! ### What the timer agents change -/

theorem sameBut_popTurn {parts : List Part} (s : State) (hs : .schedule ∈ parts) (hr : .rounds ∈ parts) :
    SameBut parts s s.popTurn := by
  constructor <;> simp [hs, hr]

theorem byte_sub_one_toNat {b : Byte} (h : b.toNat > 0) : (b - 1).toNat = b.toNat - 1 := by
  have := b.isLt
  rw [byte_sub_toNat]
  show (b.toNat + 256 - 1) % 256 = _
  omega

theorem delayTick_DT_toNat (s : State) : (delayTick s).DT.toNat = s.DT.toNat - 1 := by
  unfold delayTick
  split
  · next h => exact byte_sub_one_toNat h
  · omega

theorem sameBut_delayTick {parts : List Part} (s : State) (hd : .DT ∈ parts) : SameBut parts s (delayTick s) := by
  unfold delayTick
  split
  · constructor <;> simp [hd]
  · exact SameBut.refl parts s

theorem delayTick_run (s : State) : (delayTick s).run = s.run := by
  unfold delayTick; split <;> rfl

theorem delayTick_schedule (s : State) : (delayTick s).schedule = s.schedule := by
  unfold delayTick; split <;> rfl

theorem soundTick_ST_toNat (s : State) : (soundTick s).ST.toNat = s.ST.toNat - 1 := by
  unfold soundTick
  split
  · next h => exact byte_sub_one_toNat h
  · omega

theorem soundTick_run (s : State) : (soundTick s).run = s.run := by
  unfold soundTick; split <;> rfl

theorem soundTick_schedule (s : State) : (soundTick s).schedule = s.schedule := by
  unfold soundTick; split <;> rfl

theorem soundTick_tones (s : State) : (soundTick s).tones = s.tones + if s.ST.toNat > 0 then 1 else 0 := by
  unfold soundTick; split <;> rfl

theorem sameBut_soundTick {parts : List Part} (s : State) (hs : .ST ∈ parts) (ht : .tones ∈ parts) :
    SameBut parts s (soundTick s) := by
  unfold soundTick
  split
  · constructor <;> simp [hs, ht]
  · exact SameBut.refl parts s

/-! ### What an instruction halts for -/

/-- The cases in which an instruction halts in a state, with the reason it gives (spec 60_exceptions.md R240). -/
inductive InstrHalts (s : State) : Instr → HaltReason → Prop
  | retEmpty : s.stack = [] → InstrHalts s .ret .stackUnderflow
  | callFull (nnn : Addr) : s.cfg.stackDepth = some s.stack.length → InstrHalts s (.call nnn) .stackOverflow
  | drwRange (x y : Reg) (n : Nibble) : 0 < n.toNat → 0x1000 ≤ s.I.toNat + n.toNat - 1 → InstrHalts s (.drw x y n) .memRange
  | ldBRange (x : Reg) : 0x1000 ≤ s.I.toNat + 2 → InstrHalts s (.ldBVx x) .memRange
  | ldMemRange (x : Reg) : 0x1000 ≤ s.I.toNat + x.val → InstrHalts s (.ldMemVx x) .memRange
  | ldVxMemRange (x : Reg) : 0x1000 ≤ s.I.toNat + x.val → InstrHalts s (.ldVxMem x) .memRange
  | ldBFont (x : Reg) (k : Nat) : k ≤ 2 → inFont s.cfg (s.I.toNat + k) = true → InstrHalts s (.ldBVx x) .fontWrite
  | ldMemFont (x : Reg) (k : Nat) : k ≤ x.val → inFont s.cfg (s.I.toNat + k) = true → InstrHalts s (.ldMemVx x) .fontWrite
  | skpKey (x : Reg) : 0xF < (s.getV x).toNat → InstrHalts s (.skp x) .keyRange
  | sknpKey (x : Reg) : 0xF < (s.getV x).toNat → InstrHalts s (.sknp x) .keyRange
  | ldFDigit (x : Reg) : 0xF < (s.getV x).toNat → InstrHalts s (.ldFVx x) .fontRange

section
variable {i : Instr} {s t : State}

theorem eq_halt_of_haltAt {q : HaltReason} (h : exec i s = .next t) (he : exec i s = haltAt i q s) :
    t = s.halt q (some (encode i)) := by
  rw [he, haltAt_eq] at h
  exact (Host.Outcome.next.inj h).symm

theorem run_eq_of_next {u : State} (h : exec i s = .next t) (he : exec i s = .next u) (hu : u.run = s.run) : t.run = s.run := by
  rw [he] at h
  rwa [← Host.Outcome.next.inj h]

/-- A store of n + 1 bytes that halts either reaches past memory or into the digit region. -/
theorem store_halts {bytes : List Byte} {n : Nat} (h : exec i s = .next t) (ht : t.run ≠ s.run)
    (he : exec i s = storeAtI i bytes s) (hn : bytes.length = n + 1)
    (hr : 0x1000 ≤ s.I.toNat + n → InstrHalts s i .memRange)
    (hf : ∀ k, k ≤ n → inFont s.cfg (s.I.toNat + k) = true → InstrHalts s i .fontWrite) :
    ∃ q, InstrHalts s i q ∧ t = s.halt q (some (encode i)) := by
  rcases storeAtI_cases i bytes s t (he ▸ h) with ⟨-, rfl⟩ | ⟨q, hq, rfl⟩
  · exact absurd rfl ht
  · refine ⟨q, ?_, rfl⟩
    rw [storeCheck_some, hn] at hq
    rcases hq with ⟨rfl, -, hlen⟩ | ⟨rfl, -, k, hk, hfont⟩
    · exact hr (by omega)
    · exact hf k (by omega) hfont

/-- An instruction that changes `run` halts for one of its own causes and reports its own opcode: the others never do, and each
of these does not where its check passes. -/
theorem exec_halts (h : exec i s = .next t) (ht : t.run ≠ s.run) :
    ∃ q, InstrHalts s i q ∧ t = s.halt q (some (encode i)) := by
  cases i
  case ret =>
    cases hs : s.stack with
    | nil => exact ⟨_, .retEmpty hs, eq_halt_of_haltAt h (exec_ret_nil hs)⟩
    | cons a rest => exact absurd (run_eq_of_next h (exec_ret_cons hs) rfl) ht
  case call nnn =>
    by_cases hd : s.cfg.stackDepth = some s.stack.length
    · exact ⟨_, .callFull nnn hd, eq_halt_of_haltAt h (exec_call_full nnn hd)⟩
    · exact absurd (run_eq_of_next h (exec_call_below nnn hd) rfl) ht
  case drw x y n =>
    by_cases hr : 0 < n.toNat ∧ 0x1000 ≤ s.I.toNat + n.toNat - 1
    · obtain ⟨hn, hi⟩ := hr
      exact ⟨_, .drwRange x y n hn hi, eq_halt_of_haltAt h (exec_drw_out_of_range hn hi)⟩
    · exact absurd (run_eq_of_next h (exec_drw_in_range (by omega)) rfl) ht
  case skp x =>
    cases hk : keyOfByte (s.getV x) with
    | none =>
      have hx := (keyOfByte_none _).mp hk
      exact ⟨_, .skpKey x hx, eq_halt_of_haltAt h (exec_skp_noKey hx)⟩
    | some k => exact absurd (run_eq_of_next h (exec_skp_key ((keyOfByte_some _ k).mp hk)) rfl) ht
  case sknp x =>
    cases hk : keyOfByte (s.getV x) with
    | none =>
      have hx := (keyOfByte_none _).mp hk
      exact ⟨_, .sknpKey x hx, eq_halt_of_haltAt h (exec_sknp_noKey hx)⟩
    | some k => exact absurd (run_eq_of_next h (exec_sknp_key ((keyOfByte_some _ k).mp hk)) rfl) ht
  case ldVxK x =>
    cases hl : s.latch with
    | none => exact absurd (run_eq_of_next h (exec_ldVxK_waits x hl) rfl) ht
    | some k => exact absurd (run_eq_of_next h (exec_ldVxK_latched x hl) rfl) ht
  case ldFVx x =>
    rcases Nat.lt_or_ge 0xF (s.getV x).toNat with hx | hx
    · exact ⟨_, .ldFDigit x hx, eq_halt_of_haltAt h (exec_ldFVx_noDigit hx)⟩
    · exact absurd (run_eq_of_next h (exec_ldFVx_digit hx) rfl) ht
  case ldBVx x => exact store_halts h ht rfl rfl (.ldBRange x) (.ldBFont x)
  case ldMemVx x => exact store_halts h ht rfl (regBlock_length s x) (.ldMemRange x) (.ldMemFont x)
  case ldVxMem x =>
    rcases Nat.lt_or_ge (s.I.toNat + x.val) 0x1000 with hr | hr
    · exact absurd (run_eq_of_next h (exec_ldVxMem_in_range hr) rfl) ht
    · exact ⟨_, .ldVxMemRange x hr, eq_halt_of_haltAt h (exec_ldVxMem_out_of_range hr)⟩
  all_goals exact absurd (run_eq_of_next h rfl rfl) ht

end

/-! ### What a step halts for -/

/-- An instruction at PC reports the word fetched there when it halts. -/
theorem encode_instrAtPC {s : State} {i : Instr} (hi : instrAtPC s = some i) : encode i = fetchWord s := encode_of_decodeWord hi

/-- Each case in which the instruction at PC halts is a cause of the table (R240). -/
theorem haltCause_of_instrHalts {s : State} {i : Instr} {q : HaltReason} (hc : s.cpuTurn = true) (hi : instrAtPC s = some i)
    (hq : InstrHalts s i q) : haltCause s (some (encode i)) q := by
  have ho : some (encode i) = some (fetchWord s) := congrArg some (encode_instrAtPC hi)
  cases hq with
  | retEmpty hs => exact ⟨hc, rfl, hi, hs⟩
  | callFull nnn hd => exact ⟨hc, ho, hd, nnn, hi⟩
  | drwRange x y n hn hr => exact ⟨hc, .inr ⟨ho, .inl ⟨x, y, n, hi, hn, hr⟩⟩⟩
  | ldBRange x hr => exact ⟨hc, .inr ⟨ho, .inr (.inl ⟨x, hi, hr⟩)⟩⟩
  | ldMemRange x hr => exact ⟨hc, .inr ⟨ho, .inr (.inr ⟨x, .inl hi, hr⟩)⟩⟩
  | ldVxMemRange x hr => exact ⟨hc, .inr ⟨ho, .inr (.inr ⟨x, .inr hi, hr⟩)⟩⟩
  | ldBFont x k hk hf =>
    obtain ⟨hlo, hhi⟩ := (inFont_iff ..).mp hf
    exact ⟨hc, ho, x, k, hlo, hhi, .inl ⟨hi, hk⟩⟩
  | ldMemFont x k hk hf =>
    obtain ⟨hlo, hhi⟩ := (inFont_iff ..).mp hf
    exact ⟨hc, ho, x, k, hlo, hhi, .inr ⟨hi, hk⟩⟩
  | skpKey x hx => exact ⟨hc, ho, x, .inl hi, hx⟩
  | sknpKey x hx => exact ⟨hc, ho, x, .inr hi, hx⟩
  | ldFDigit x hx => exact ⟨hc, ho, x, hi, hx⟩

/-- Taking the turn touches nothing that an instruction halts for. -/
theorem InstrHalts.of_popTurn {s : State} {i : Instr} {q : HaltReason} (h : InstrHalts s.popTurn i q) : InstrHalts s i q := by
  cases h <;> constructor <;> assumption

/-- A CPU turn that leaves the machine halted: the fetch is out of range, no row matches, or the instruction at PC halts. -/
theorem tick_halt {s t : State} (hr : s.run = .running) (hc : s.cpuTurn = true) (h : tick s.popTurn = .next t)
    (ht : t.run ≠ .running) : ∃ q o, t = s.popTurn.halt q o ∧ haltCause s o q := by
  rcases tick_cases _ _ h with ⟨hp, rfl⟩ | ⟨hp, hi, rfl⟩ | ⟨-, i, hi, he⟩
  · exact ⟨_, _, rfl, hc, .inl ⟨hp, rfl⟩⟩
  · exact ⟨_, _, rfl, hc, hp, rfl, hi⟩
  · have hrun : t.run ≠ s.popTurn.run := fun heq => ht (heq.trans hr)
    obtain ⟨q, hq, rfl⟩ := exec_halts he hrun
    exact ⟨q, _, rfl, haltCause_of_instrHalts hc hi hq.of_popTurn⟩

/-- A step that leaves the machine halted only writes the report, at the state with the turn taken, and does so for the reason's
cause: it is a CPU turn or the host's close, since the other agents keep `run`. -/
theorem step_halt {s t : State} (h : step s = .next t) (ht : t.run ≠ .running) :
    ∃ q o, t = s.popTurn.halt q o ∧ haltCause s o q := by
  obtain ⟨hr, hcases⟩ := step_cases s t h
  rcases hcases with ⟨hc, htick⟩ | ⟨-, rfl⟩ | ⟨-, rfl⟩ | ⟨k, -, rfl⟩ | ⟨k, -, rfl⟩ | ⟨hclose, rfl⟩
  · exact tick_halt hr hc htick ht
  · exact absurd ((delayTick_run s.popTurn).trans hr) ht
  · exact absurd ((soundTick_run s.popTurn).trans hr) ht
  · exact absurd hr ht
  · exact absurd hr ht
  · exact ⟨_, _, rfl, hclose, rfl⟩

/-- Every cause of the table reports no opcode or the word fetched at PC; RET's own opcode is that word. -/
theorem opcode_of_haltCause {s : State} {o : Option Word} {q : HaltReason} (h : haltCause s o q) :
    o = none ∨ o = some (fetchWord s) := by
  cases q with
  | unhandled =>
    obtain ⟨-, -, ho, -⟩ := h
    exact .inr ho
  | hostExit =>
    obtain ⟨-, ho⟩ := h
    exact .inl ho
  | stackUnderflow =>
    obtain ⟨-, ho, hi, -⟩ := h
    exact .inr (ho.trans (congrArg some (encode_instrAtPC hi)))
  | stackOverflow => obtain ⟨-, ho, -⟩ := h; exact .inr ho
  | memRange =>
    obtain ⟨-, ⟨-, ho⟩ | ⟨ho, -⟩⟩ := h
    · exact .inl ho
    · exact .inr ho
  | fontWrite => obtain ⟨-, ho, -⟩ := h; exact .inr ho
  | keyRange => obtain ⟨-, ho, -⟩ := h; exact .inr ho
  | fontRange => obtain ⟨-, ho, -⟩ := h; exact .inr ho

/-! ### The statements -/

/-- Settles O10: such a step only writes the report, and each reason's cause fixes the opcode in it. -/
theorem everyHaltIsPrecise : Obligations.EveryHaltIsPrecise := by
  unfold Obligations.EveryHaltIsPrecise
  intro s t h ht
  obtain ⟨q, o, rfl, hcause⟩ := step_halt h ht
  exact ⟨q, o, haltedFrom_halt s.popTurn q o, opcode_of_haltCause hcause⟩

/-- Settles O11: the report of the halted state is the one that such a step wrote, with the PC it started from. -/
theorem everyHaltHasItsCause : Obligations.EveryHaltHasItsCause := by
  unfold Obligations.EveryHaltHasItsCause
  constructor
  · intro s t reason addr opcode h hrun
    have ht : t.run ≠ .running := by rw [hrun]; exact Run.noConfusion
    obtain ⟨q, o, rfl, hcause⟩ := step_halt h ht
    obtain ⟨rfl, rfl, rfl⟩ := Run.halted.inj hrun
    exact ⟨rfl, hcause⟩
  · rfl

/-- Settles O12: a next state comes from a turn of a running machine. -/
theorem noStepFollowsAHalt : Obligations.NoStepFollowsAHalt := by
  unfold Obligations.NoStepFollowsAHalt
  intro s t h
  obtain ⟨hr, -⟩ := step_cases s t h
  exact hr

/-- Settles O43: the turn is taken, then the timer's tick changes its own parts alone. -/
theorem timerAgentsDecrement : Obligations.TimerAgentsDecrement := by
  unfold Obligations.TimerAgentsDecrement
  intro s hr
  constructor
  · intro hu
    exact ⟨_, step_turn s .delayTimer hr hu, delayTick_DT_toNat s.popTurn, delayTick_schedule s.popTurn,
      (sameBut_popTurn s (by simp) (by simp)).trans (sameBut_delayTick s.popTurn (by simp))⟩
  · intro hu
    exact ⟨_, step_turn s .soundTimer hr hu, soundTick_ST_toNat s.popTurn, soundTick_tones s.popTurn,
      soundTick_schedule s.popTurn, (sameBut_popTurn s (by simp) (by simp)).trans (sameBut_soundTick s.popTurn (by simp) (by simp))⟩

/-- Settles O45: the close is a halt at the state with the turn taken. -/
theorem closeHaltsAtTheBoundary : Obligations.CloseHaltsAtTheBoundary := by
  unfold Obligations.CloseHaltsAtTheBoundary
  intro s hr hu
  exact ⟨_, step_turn s .close hr hu, haltedFrom_halt s.popTurn .hostExit none⟩

end Sys2Proof.Machine
end

section
/-! PROOFS. Reset and the program load (spec 70_reset_and_hazards.md R280, R281). -/

namespace Sys2Proof.Machine

/-! ### What the check on a launch says, and the byte of memory in each region -/

theorem Launch.wf_iff (p : Launch) :
    p.wf = true ↔ p.cfg.fontBase + 80 ≤ 0x200 ∧ p.glyphs.length = 80 ∧ p.image.length ≤ 3584 := by
  simp only [Launch.wf, Config.wf, Bool.and_eq_true, decide_eq_true_eq, and_assoc]
  rfl

/-- A glyph lies at its place in the digit region (R280 step 2). -/
theorem Launch.byteAt_glyph (p : Launch) {k : Nat} (h : k < 80) : p.byteAt (p.cfg.fontBase + k) = p.glyphs.getD k 0 := by
  rw [byteAt, if_pos ((inFont_iff ..).mpr (by omega)), Nat.add_sub_cancel_left]

/-- An image byte lies at its place from 0x200, which is above the digit region (R281). -/
theorem Launch.byteAt_image {p : Launch} (hfont : p.cfg.fontBase + 80 ≤ 0x200) {k : Nat} (h : k < p.image.length) :
    p.byteAt (0x200 + k) = p.image.getD k 0 := by
  have houtside : ¬ inFont p.cfg (0x200 + k) = true := by rw [inFont_iff]; omega
  rw [byteAt, if_neg houtside, if_pos ⟨Nat.le_add_right .., Nat.add_lt_add_left h _⟩, Nat.add_sub_cancel_left]

/-- Outside the digit region and the image, memory has `init_mem`'s byte (R280 step 1). -/
theorem Launch.byteAt_outside {p : Launch} {a : Nat} (hfont : inFont p.cfg a = false) (himage : a < 0x200 ∨ 0x200 + p.image.length ≤ a) :
    p.byteAt a = p.initMem a := by
  rw [byteAt, if_neg (by simp [hfont]), if_neg (by rw [programBase]; omega)]

/-- The launched display is clear, the one that CLS leaves (R280 step 3). -/
@[simp] theorem launched_pixel (p : Launch) (r : Fin 32) (c : Fin 64) : (State.launched p).pixel r c = false :=
  pixel_clear r c

/-! ### The statement -/

/-- Settles O55: the digit region, the image and the rest of memory are read apart, and every other part is a field of the
launched state; the launch answers by the image's size alone. -/
theorem launchSetsEveryPart : Obligations.LaunchSetsEveryPart := by
  unfold Obligations.LaunchSetsEveryPart
  refine ⟨?parts, ?fits, ?tooLarge⟩
  case parts =>
    intro p s hwf hs
    obtain ⟨hfont, -, himage⟩ := p.wf_iff.mp hwf
    obtain ⟨-, rfl⟩ := (launch_some p s).mp hs
    refine ⟨?glyphs, ?image, ?rest, launched_pixel p, launched_getV p, rfl, rfl, rfl, rfl, rfl, launched_isHeld p, rfl, rfl, rfl⟩
    case glyphs =>
      intro k hk
      rw [launched_read p _ (by omega), p.byteAt_glyph hk]
    case image =>
      intro k hk
      rw [launched_read p _ (by omega), Launch.byteAt_image hfont hk]
    case rest =>
      intro a ha hregion hload
      rw [launched_read p a ha, Launch.byteAt_outside hregion hload]
  case fits =>
    intro p h
    exact ⟨State.launched p, (launch_some p _).mpr ⟨h, rfl⟩⟩
  case tooLarge =>
    intro p h
    rw [Option.eq_none_iff_forall_ne_some]
    intro s hs
    obtain ⟨hle, -⟩ := (launch_some p s).mp hs
    omega

end Sys2Proof.Machine
end

section
/-! PROOFS. The opcode table: disjoint rows, decoding against encoding, the words of no row (spec 30_encoding.md R71 to R77). -/

namespace Sys2Proof

/-! ### Disjoint rows -/

/-- Two rows differ in a bit that both fix. -/
def Descriptor.Conflicts (d e : Descriptor) : Prop := d.expected &&& e.mask ≠ e.expected &&& d.mask

theorem Descriptor.Conflicts.not_both_accept {d e : Descriptor} (h : d.Conflicts e) {op : Word} (hd : d.accepts op = true) :
    e.accepts op = false := by
  rw [Descriptor.accepts_eq_false_iff]
  intro he
  have hd' : op &&& d.mask = d.expected := eq_of_beq hd
  apply h
  rw [← hd', ← he, BitVec.and_assoc, BitVec.and_assoc, BitVec.and_comm d.mask]

/-- A finite check of the pairs of rows, on their columns "expected" and "mask" alone. -/
theorem table_conflicts (yDontCare : Bool) : (table yDontCare).Pairwise Descriptor.Conflicts := by
  unfold Descriptor.Conflicts
  cases yDontCare <;> decide

section
variable {rows : List Descriptor} (hrows : rows.Pairwise Descriptor.Conflicts) (op : Word)
include hrows

theorem countP_accepts_le_one : rows.countP (fun d => d.accepts op) ≤ 1 := by
  induction hrows with
  | nil => simp
  | @cons d rows hd _ ih =>
    cases ha : d.accepts op with
    | false => simpa [ha] using ih
    | true =>
      have hnone : rows.countP (fun d => d.accepts op) = 0 :=
        List.countP_eq_zero.mpr fun e he => by simp [(hd e he).not_both_accept ha]
      simp [ha, hnone]

/-- Where the rows conflict, the scan's result does not depend on their order: it is what any accepting row builds. -/
theorem scan_eq_some_iff (i : Instr) : scan rows op = some i ↔ ∃ d ∈ rows, d.accepts op = true ∧ d.build op = i := by
  refine ⟨exists_row_of_scan, ?_⟩
  induction hrows with
  | nil => simp
  | @cons e rows hconf _ ih =>
    rintro ⟨d, hd, ha, hb⟩
    rw [scan_cons]
    rcases List.mem_cons.mp hd with rfl | hd
    · rw [if_pos ha, hb]
    · have he : ¬ e.accepts op = true := fun he => by simp [(hconf d hd).not_both_accept he] at ha
      rw [if_neg he]
      exact ih ⟨d, hd, ha, hb⟩

end

theorem decodeWord_eq_some_iff (yDontCare : Bool) (op : Word) (i : Instr) :
    decodeWord yDontCare op = some i ↔ ∃ d ∈ table yDontCare, d.accepts op = true ∧ d.build op = i :=
  scan_eq_some_iff (table_conflicts yDontCare) op i

/-! ### The decoder and the encoder -/

/-- Every instruction has a row that accepts its opcode and builds it back. -/
theorem ownRow (i : Instr) : Laws.OwnRow.Statement i := by
  cases i with
  | cls => exact Laws.OwnRow.cls
  | ret => exact Laws.OwnRow.ret
  | jp nnn => exact Laws.OwnRow.jp nnn
  | call nnn => exact Laws.OwnRow.call nnn
  | seByte x kk => exact Laws.OwnRow.seByte x kk
  | sneByte x kk => exact Laws.OwnRow.sneByte x kk
  | seReg x y => exact Laws.OwnRow.seReg x y
  | ldByte x kk => exact Laws.OwnRow.ldByte x kk
  | addByte x kk => exact Laws.OwnRow.addByte x kk
  | ldReg x y => exact Laws.OwnRow.ldReg x y
  | orReg x y => exact Laws.OwnRow.orReg x y
  | andReg x y => exact Laws.OwnRow.andReg x y
  | xorReg x y => exact Laws.OwnRow.xorReg x y
  | addReg x y => exact Laws.OwnRow.addReg x y
  | subReg x y => exact Laws.OwnRow.subReg x y
  | shr x y => exact Laws.OwnRow.shr x y
  | subnReg x y => exact Laws.OwnRow.subnReg x y
  | shl x y => exact Laws.OwnRow.shl x y
  | sneReg x y => exact Laws.OwnRow.sneReg x y
  | ldI nnn => exact Laws.OwnRow.ldI nnn
  | jpV0 nnn => exact Laws.OwnRow.jpV0 nnn
  | rnd x kk => exact Laws.OwnRow.rnd x kk
  | drw x y n => exact Laws.OwnRow.drw x y n
  | skp x => exact Laws.OwnRow.skp x
  | sknp x => exact Laws.OwnRow.sknp x
  | ldVxDT x => exact Laws.OwnRow.ldVxDT x
  | ldVxK x => exact Laws.OwnRow.ldVxK x
  | ldDTVx x => exact Laws.OwnRow.ldDTVx x
  | ldSTVx x => exact Laws.OwnRow.ldSTVx x
  | addIVx x => exact Laws.OwnRow.addIVx x
  | ldFVx x => exact Laws.OwnRow.ldFVx x
  | ldBVx x => exact Laws.OwnRow.ldBVx x
  | ldMemVx x => exact Laws.OwnRow.ldMemVx x
  | ldVxMem x => exact Laws.OwnRow.ldVxMem x

theorem decodeWord_encode {yDontCare : Bool} {i : Instr} (h : i.wf yDontCare = true) :
    decodeWord yDontCare (encode i) = some i := by
  obtain ⟨k, d, hk, ha, hb⟩ := ownRow i yDontCare h
  exact (decodeWord_eq_some_iff ..).mpr ⟨d, List.mem_of_getElem? hk, ha, hb⟩

/-- What a row builds from a word that it accepts is well-formed; only the shifts' rows have something to show. -/
def Descriptor.BuildsWf (yDontCare : Bool) (d : Descriptor) : Prop :=
  ∀ op, d.accepts op = true → (d.build op).wf yDontCare = true

theorem rowsShift_buildsWf (yDontCare : Bool) : ∀ d ∈ rowsShift yDontCare, d.BuildsWf yDontCare := by
  simp only [rowsShift, List.forall_mem_cons]
  cases yDontCare with
  | true => exact ⟨fun _ _ => rfl, fun _ _ => rfl, fun _ _ => rfl, List.forall_mem_nil _⟩
  | false =>
    have noY : ∀ {d : Descriptor} {op : Word}, d.accepts op = true → d.mask.extractLsb' 4 4 = BitVec.allOnes 4 →
        d.expected.extractLsb' 4 4 = 0#4 → (fieldYBits op == 0) = true := fun ha hm he =>
      beq_iff_eq.mpr ((Descriptor.slice_of_accepts ha hm).trans he)
    exact ⟨fun _ ha => noY ha rfl rfl, fun _ _ => rfl, fun _ ha => noY ha rfl rfl, List.forall_mem_nil _⟩

theorem table_buildsWf (yDontCare : Bool) : ∀ d ∈ table yDontCare, d.BuildsWf yDontCare := by
  simp only [table, List.forall_mem_append]
  refine ⟨⟨⟨⟨?_, ?_⟩, rowsShift_buildsWf yDontCare⟩, ?_⟩, ?_⟩
  · simp [rowsControl, Descriptor.BuildsWf, Instr.wf]
  · simp [rowsLogic, Descriptor.BuildsWf, Instr.wf]
  · simp [rowsMiddle, Descriptor.BuildsWf, Instr.wf]
  · simp [rowsF, Descriptor.BuildsWf, Instr.wf]

/-- Settles O1: the instruction's own row accepts its word, and no other row does. -/
theorem decodeReadsBackEveryEncodedInstruction : Obligations.DecodeReadsBackEveryEncodedInstruction := by
  unfold Obligations.DecodeReadsBackEveryEncodedInstruction
  intro yDontCare i hi
  rw [encodeBytes, decode_ok, wordOfBytes_high_low]
  exact decodeWord_encode hi

/-- Settles O2: the row that built the instruction gives both facts. -/
theorem encodeReproducesEveryDecodedWord : Obligations.EncodeReproducesEveryDecodedWord := by
  unfold Obligations.EncodeReproducesEveryDecodedWord
  intro yDontCare hi lo i h
  rw [decode_ok] at h
  constructor
  · obtain ⟨d, hd, ha, rfl⟩ := exists_row_of_scan h
    exact table_buildsWf yDontCare d hd _ ha
  · rw [encodeBytes, encode_of_decodeWord h, highByte_wordOfBytes, lowByte_wordOfBytes]

/-- Settles O3: the rows conflict pairwise, so that at most one accepts a word, and it is the same one in every order. -/
theorem firstMatchScanIsFreeOfOrder : Obligations.FirstMatchScanIsFreeOfOrder := by
  unfold Obligations.FirstMatchScanIsFreeOfOrder
  intro yDontCare op
  have hle := countP_accepts_le_one (table_conflicts yDontCare) op
  refine ⟨hle, ?order, ?exactlyOne⟩
  case order =>
    intro rows hperm
    have hsymm : ∀ {d e : Descriptor}, d.Conflicts e → e.Conflicts d := Ne.symm
    have hrows : rows.Pairwise Descriptor.Conflicts := (hperm.pairwise_iff hsymm).mpr (table_conflicts yDontCare)
    ext i
    rw [scan_eq_some_iff hrows, decodeWord_eq_some_iff]
    simp only [hperm.mem_iff]
  case exactlyOne =>
    have hpos : decodeWord yDontCare op ≠ none ↔ 0 < (table yDontCare).countP (fun d => d.accepts op) := by
      rw [List.countP_pos_iff, ne_eq, decodeWord, scan_eq_none_iff]
      simp
    rw [hpos]
    omega

/-! ### The words of no row (spec 30_encoding.md R77) -/

section
variable {op e : Word}

theorem and_F000_eq_iff (he : e &&& 0xF000 = e) : op &&& 0xF000 = e ↔ op.toNat / 4096 = e.toNat / 4096 := by
  rw [← he, word_eq_nibbles op, word_eq_nibbles e, nibbles_and_F000, nibbles_and_F000, ← BitVec.toNat_inj]
  simp only [nibbles_toNat, BitVec.ofNat_eq_ofNat, BitVec.toNat_ofNat]
  omega

theorem and_F00F_eq_iff (he : e &&& 0xF00F = e) :
    op &&& 0xF00F = e ↔ op.toNat / 4096 = e.toNat / 4096 ∧ op.toNat % 16 = e.toNat % 16 := by
  rw [← he, word_eq_nibbles op, word_eq_nibbles e, nibbles_and_F00F, nibbles_and_F00F, ← BitVec.toNat_inj]
  simp only [nibbles_toNat, BitVec.ofNat_eq_ofNat, BitVec.toNat_ofNat]
  omega

theorem and_F0FF_eq_iff (he : e &&& 0xF0FF = e) :
    op &&& 0xF0FF = e ↔ op.toNat / 4096 = e.toNat / 4096 ∧ op.toNat % 256 = e.toNat % 256 := by
  rw [← he, word_eq_nibbles op, word_eq_nibbles e, nibbles_and_F0FF, nibbles_and_F0FF, ← BitVec.toNat_inj]
  simp only [nibbles_toNat, BitVec.ofNat_eq_ofNat, BitVec.toNat_ofNat]
  omega

theorem and_FFFF_eq_iff : op &&& 0xFFFF = e ↔ op.toNat = e.toNat := by
  rw [show (0xFFFF : Word) = BitVec.allOnes 16 from rfl, BitVec.and_allOnes, BitVec.toNat_inj]

end

/-- Settles O5: each row's test as a condition on the word as a number; then top nibble by top nibble. -/
theorem unhandledWordsAreTheSevenClasses : Obligations.UnhandledWordsAreTheSevenClasses := by
  unfold Obligations.UnhandledWordsAreTheSevenClasses
  intro op
  have hop := op.isLt
  rw [decodeWord_eq_none_iff]
  simp only [table, rowsControl, rowsLogic, rowsShift, rowsMiddle, rowsF, List.forall_mem_append, List.forall_mem_cons,
    List.not_mem_nil, false_implies, implies_true, and_true, Bool.false_eq_true, if_false, ne_eq]
  simp (disch := decide) only [and_F000_eq_iff, and_F00F_eq_iff, and_F0FF_eq_iff, and_FFFF_eq_iff]
  simp only [BitVec.reduceToNat, Nat.reduceDiv, Nat.reduceMod, List.mem_cons, List.not_mem_nil, or_false]
  obtain ⟨top, htop⟩ : ∃ top, op.toNat / 4096 = top := ⟨_, rfl⟩
  have hlt : top < 16 := by omega
  interval_cases top <;> simp [htop] <;> omega

/-! ### Patterns (spec 30_encoding.md R74) -/

theorem table_compiles (yDontCare : Bool) :
    ∀ d ∈ table yDontCare, compilePattern d.pattern.toList = some (d.expected, d.mask) := by
  cases yDontCare <;> decide

/-- A character outside the alphabet stops the compilation, whatever stands before it. -/
theorem patternNibbles_eq_none {c : Char} (hx : c ≠ 'x') (hd : hexDigit? c = none) (hs : isSeparator c = false) :
    ∀ {p : List Char}, c ∈ p → patternNibbles p = none
  | c' :: p, hc => by
    rw [patternNibbles]
    rcases List.mem_cons.mp hc with rfl | hc
    · simp [hx, hd, hs]
    · rw [patternNibbles_eq_none hx hd hs hc]
      cases hexDigit? c' <;> simp

/-- Settles O4: the columns by a finite check of the rows, the rest by the position of the character. -/
theorem patternsCompileToTheirExpectedAndMask : Obligations.PatternsCompileToTheirExpectedAndMask := by
  unfold Obligations.PatternsCompileToTheirExpectedAndMask
  constructor
  · intro yDontCare d hd
    exact ⟨table_compiles yDontCare d hd, fun _ => beq_iff_eq⟩
  · intro p c hc hx hd hs
    rw [compilePattern, patternNibbles_eq_none hx hd hs hc]

/-- Settles O6: by running the decoder on each word. -/
theorem wordsOfTheOpcodeMapDecode : Obligations.WordsOfTheOpcodeMapDecode := by
  unfold Obligations.WordsOfTheOpcodeMapDecode
  decide

end Sys2Proof
end

section
/-! PROOFS. All that an instruction can do, and what each instruction may change (spec 10_state.md, 40_execution_cycle.md R103). -/

namespace Sys2Proof.Machine

/-! ### The outcomes of an instruction -/

/-- The states that an instruction can leave: every instruction ends in one of these updates. What it halts for stands in `InstrHalts`. -/
inductive Effect (s : State) : Instr → State → Prop
  | halt {i : Instr} (q : HaltReason) : Effect s i (s.halt q (some (encode i)))
  | skip {i : Instr} (b : Bool) : Effect s i (s.advance (skipIf b))
  | wait (x : Reg) (hlatch : s.latch = none) : Effect s (.ldVxK x) s
  | ret {a : Word} {rest : List Word} (hstack : s.stack = a :: rest) : Effect s .ret ((s.setStack rest).setPC a)
  | jp (nnn : Addr) : Effect s (.jp nnn) (s.setPC (zextAddr nnn))
  | jpV0 (nnn : Addr) (b : Byte) : Effect s (.jpV0 nnn) (s.setPC (zextAddr nnn + zextByte b))
  | call (nnn : Addr) (hroom : s.cfg.stackDepth ≠ some s.stack.length) :
      Effect s (.call nnn) ((s.setStack ((s.PC + 2) :: s.stack)).setPC (zextAddr nnn))
  | setV {i : Instr} {x : Reg} (b : Byte) (hx : x ∈ destRegs i) : Effect s i ((s.setV x b).advance 1)
  | setResultFlag {i : Instr} {x : Reg} (a f : Byte) (hx : x ∈ destRegs i) (hf : VF ∈ destRegs i) :
      Effect s i ((s.setResultFlag x a f).advance 1)
  | rnd (x : Reg) (kk b : Byte) : Effect s (.rnd x kk) ((s.countDraw.setV x b).advance 1)
  | takeKey (x : Reg) (b : Byte) : Effect s (.ldVxK x) (((s.setLatch none).setV x b).advance 1)
  | loadRegBlock (x : Reg) (a : Nat) : Effect s (.ldVxMem x) ((s.loadRegBlock x a).advance 1)
  | setI {i : Instr} (a : Word) (hi : ∃ x nnn, i = .ldI nnn ∨ i = .addIVx x ∨ i = .ldFVx x) : Effect s i ((s.setI a).advance 1)
  | setDT (x : Reg) (b : Byte) : Effect s (.ldDTVx x) ((s.setDT b).advance 1)
  | setST (x : Reg) (b : Byte) : Effect s (.ldSTVx x) ((s.setST b).advance 1)
  | cls (d : Display) : Effect s .cls ((s.setDisp d).advance 1)
  | drw (x y : Reg) (n : Nibble) (drawn : Display × Bool) : Effect s (.drw x y n) (s.showSprite drawn)
  | store {i : Instr} (bytes : List Byte) (hcheck : storeCheck s.cfg s.I.toNat bytes.length = none)
      (hi : ∃ x, i = .ldBVx x ∨ i = .ldMemVx x) :
      Effect s i ((s.setMem (s.mem.writeBytes s.I.toNat bytes)).advance 1)

/-- A store's two outcomes. -/
theorem storeAtI_effect {i : Instr} (bytes : List Byte) (s : State) (hi : ∃ x, i = .ldBVx x ∨ i = .ldMemVx x) :
    ∃ t, storeAtI i bytes s = .next t ∧ Effect s i t := by
  cases hc : storeCheck s.cfg s.I.toNat bytes.length with
  | none => exact ⟨_, by rw [storeAtI, hc], .store bytes hc hi⟩
  | some q => exact ⟨_, (show storeAtI i bytes s = haltAt i q s by rw [storeAtI, hc]), .halt q⟩

/-- Every instruction in every state answers a next state, one of those above. -/
theorem exec_next (i : Instr) (s : State) : ∃ t, exec i s = .next t ∧ Effect s i t := by
  cases i
  case cls => exact ⟨_, rfl, .cls _⟩
  case ret =>
    cases hs : s.stack with
    | nil => exact ⟨_, exec_ret_nil hs, .halt _⟩
    | cons a rest => exact ⟨_, exec_ret_cons hs, .ret hs⟩
  case jp nnn => exact ⟨_, rfl, .jp nnn⟩
  case jpV0 nnn => exact ⟨_, rfl, .jpV0 nnn _⟩
  case call nnn =>
    by_cases hd : s.cfg.stackDepth = some s.stack.length
    · exact ⟨_, exec_call_full nnn hd, .halt _⟩
    · exact ⟨_, exec_call_below nnn hd, .call nnn hd⟩
  case seByte | sneByte | seReg | sneReg => exact ⟨_, rfl, .skip _⟩
  case skp x =>
    cases hk : keyOfByte (s.getV x) with
    | none => exact ⟨_, exec_skp_noKey ((keyOfByte_none _).mp hk), .halt _⟩
    | some k => exact ⟨_, exec_skp_key ((keyOfByte_some _ k).mp hk), .skip _⟩
  case sknp x =>
    cases hk : keyOfByte (s.getV x) with
    | none => exact ⟨_, exec_sknp_noKey ((keyOfByte_none _).mp hk), .halt _⟩
    | some k => exact ⟨_, exec_sknp_key ((keyOfByte_some _ k).mp hk), .skip _⟩
  case ldByte | addByte | ldReg | orReg | andReg | xorReg | ldVxDT => exact ⟨_, rfl, .setV _ (List.mem_singleton_self _)⟩
  case addReg | subReg | shr | subnReg | shl =>
    exact ⟨_, rfl, .setResultFlag _ _ List.mem_cons_self (List.mem_cons_of_mem _ (List.mem_singleton_self VF))⟩
  case rnd x kk => exact ⟨_, rfl, .rnd x kk _⟩
  case ldVxK x =>
    cases hl : s.latch with
    | none => exact ⟨_, exec_ldVxK_waits x hl, .wait x hl⟩
    | some k => exact ⟨_, exec_ldVxK_latched x hl, .takeKey x _⟩
  case ldDTVx x => exact ⟨_, rfl, .setDT x _⟩
  case ldSTVx x => exact ⟨_, rfl, .setST x _⟩
  case ldI nnn => exact ⟨_, rfl, .setI _ ⟨0, nnn, .inl rfl⟩⟩
  case addIVx x => exact ⟨_, rfl, .setI _ ⟨x, 0, .inr (.inl rfl)⟩⟩
  case ldFVx x =>
    rcases Nat.lt_or_ge 0xF (s.getV x).toNat with hx | hx
    · exact ⟨_, exec_ldFVx_noDigit hx, .halt _⟩
    · exact ⟨_, exec_ldFVx_digit hx, .setI _ ⟨x, 0, .inr (.inr rfl)⟩⟩
  case ldBVx x => exact storeAtI_effect _ s ⟨x, .inl rfl⟩
  case ldMemVx x => exact storeAtI_effect _ s ⟨x, .inr rfl⟩
  case ldVxMem x =>
    rcases Nat.lt_or_ge (s.I.toNat + x.val) 0x1000 with hr | hr
    · exact ⟨_, exec_ldVxMem_in_range hr, .loadRegBlock x _⟩
    · exact ⟨_, exec_ldVxMem_out_of_range hr, .halt _⟩
  case drw x y n =>
    by_cases hr : 0 < n.toNat ∧ 0x1000 ≤ s.I.toNat + n.toNat - 1
    · obtain ⟨hn, hi⟩ := hr
      exact ⟨_, exec_drw_out_of_range hn hi, .halt _⟩
    · exact ⟨_, exec_drw_in_range (by omega), .drw x y n _⟩

section
variable {i : Instr} {s t : State}

theorem effect_of_exec (h : exec i s = .next t) : Effect s i t := by
  obtain ⟨u, hu, heffect⟩ := exec_next i s
  rw [hu] at h
  exact Host.Outcome.next.inj h ▸ heffect

theorem advance_one_PC_toNat_of_PC (h : t.PC = s.PC) : (t.advance 1).PC.toNat = nextPC s := by
  rw [advance_one_PC_toNat, nextPC, h, nextPC]

namespace Effect

/-! ### Who writes each part -/

theorem getV_eq (h : Effect s i t) {r : Reg} (hr : r ∉ destRegs i) : t.getV r = s.getV r := by
  cases h
  case setV x b hx => exact getV_setV_ne s x r b fun he => hr (he ▸ hx)
  case setResultFlag x a f hx hf => exact getV_setResultFlag_ne s x r a f (fun he => hr (he ▸ hx)) fun he => hr (he ▸ hf)
  case rnd x kk b => exact regsSameBut_setV s.countDraw x b r hr
  case takeKey x b => exact regsSameBut_setV (s.setLatch none) x b r hr
  case drw x y n drawn => exact regsSameBut_showSprite s drawn r hr
  case loadRegBlock x a =>
    have hx : ¬ r ≤ x := fun hx => hr (List.mem_filter.mpr ⟨List.mem_finRange r, decide_eq_true hx⟩)
    rw [advance_getV, getV_loadRegBlock, if_neg hx]
  all_goals rfl

theorem writes_I (h : Effect s i t) (hne : t.I ≠ s.I) : ∃ x nnn, i = .ldI nnn ∨ i = .addIVx x ∨ i = .ldFVx x := by
  cases h
  case setI a hi => exact hi
  all_goals simp [State.showSprite] at hne

theorem writes_stack (h : Effect s i t) (hne : t.stack ≠ s.stack) : ∃ nnn, i = .call nnn ∨ i = .ret := by
  cases h
  case call nnn hroom => exact ⟨nnn, .inl rfl⟩
  case ret => exact ⟨0, .inr rfl⟩
  all_goals simp [State.showSprite] at hne

theorem writes_DT (h : Effect s i t) (hne : t.DT ≠ s.DT) : ∃ x, i = .ldDTVx x := by
  cases h
  case setDT x b => exact ⟨x, rfl⟩
  all_goals simp [State.showSprite] at hne

theorem writes_ST (h : Effect s i t) (hne : t.ST ≠ s.ST) : ∃ x, i = .ldSTVx x := by
  cases h
  case setST x b => exact ⟨x, rfl⟩
  all_goals simp [State.showSprite] at hne

theorem writes_pixel (h : Effect s i t) {r : Fin 32} {c : Fin 64} (hne : t.pixel r c ≠ s.pixel r c) :
    i = .cls ∨ ∃ x y n, i = .drw x y n := by
  cases h
  case cls d => exact .inl rfl
  case drw x y n drawn => exact .inr ⟨x, y, n, rfl⟩
  all_goals simp at hne

theorem writes_latch (h : Effect s i t) (hne : t.latch ≠ s.latch) : ∃ x, i = .ldVxK x := by
  cases h
  case takeKey x b => exact ⟨x, rfl⟩
  all_goals simp [State.showSprite] at hne

theorem writes_mem (h : Effect s i t) {a : Nat} (hne : t.mem.read a ≠ s.mem.read a) : ∃ x, i = .ldBVx x ∨ i = .ldMemVx x := by
  cases h
  case store bytes hcheck hi => exact hi
  all_goals simp [State.showSprite] at hne

theorem writes_draws (h : Effect s i t) (hne : t.draws ≠ s.draws) : ∃ x kk, i = .rnd x kk := by
  cases h
  case rnd x kk b => exact ⟨x, kk, rfl⟩
  all_goals simp [State.showSprite] at hne

/-! ### PC and the stack -/

/-- Where an instruction that does not halt leaves PC: one opcode width on, two, here for a wait, or where a jump sets it. -/
theorem PC_cases (h : Effect s i t) (ht : t.run = s.run) (hr : s.run = .running) :
    t.PC.toNat = nextPC s ∨ t.PC.toNat = skipPC s ∨ (t.PC = s.PC ∧ s.latch = none ∧ ∃ x, i = .ldVxK x) ∨
      i = .ret ∨ ∃ nnn, i = .jp nnn ∨ i = .call nnn ∨ i = .jpV0 nnn := by
  cases h
  case halt q => exact absurd (ht.trans hr) Run.noConfusion
  case skip b =>
    rw [advance_skipIf_PC_toNat]
    cases b
    · exact .inl rfl
    · exact .inr (.inl rfl)
  case wait x hlatch => exact .inr (.inr (.inl ⟨rfl, hlatch, x, rfl⟩))
  case ret => exact .inr (.inr (.inr (.inl rfl)))
  case jp nnn => exact .inr (.inr (.inr (.inr ⟨nnn, .inl rfl⟩)))
  case call nnn hroom => exact .inr (.inr (.inr (.inr ⟨nnn, .inr (.inl rfl)⟩)))
  case jpV0 nnn b => exact .inr (.inr (.inr (.inr ⟨nnn, .inr (.inr rfl)⟩)))
  case drw => exact .inl (showSprite_PC_toNat s _)
  all_goals exact .inl (advance_one_PC_toNat_of_PC (by simp))

/-- An instruction fetched from memory leaves PC at most 0x10FE, where JP V0 can get at most (R24), when the stack holds such addresses. -/
theorem PC_le (h : Effect s i t) (hp : s.PC.toNat < 0x0FFF) (hstack : ∀ a ∈ s.stack, a.toNat ≤ 0x1000) : t.PC.toNat ≤ 0x10FE := by
  have hnext : nextPC s ≤ 0x10FE := by unfold nextPC; omega
  cases h
  case halt q => exact (Nat.le_of_lt hp).trans (by decide)
  case wait x hlatch => exact (Nat.le_of_lt hp).trans (by decide)
  case skip b =>
    rw [advance_skipIf_PC_toNat, skipPC]
    split <;> omega
  case ret a rest hs => exact (hstack a (hs ▸ List.mem_cons_self)).trans (by decide)
  case jp nnn => exact (zextAddr_toNat nnn).trans_le (nnn.isLt.le.trans (by decide))
  case call nnn hroom => exact (zextAddr_toNat nnn).trans_le (nnn.isLt.le.trans (by decide))
  case jpV0 nnn b =>
    rw [setPC_PC, zextAddr_add_zextByte_toNat]
    have := nnn.isLt
    have := b.isLt
    omega
  case drw => exact (showSprite_PC_toNat s _).trans_le hnext
  all_goals exact (advance_one_PC_toNat_of_PC (by simp)).trans_le hnext

/-- All that an instruction does to the stack. -/
theorem stack_cases (h : Effect s i t) :
    t.stack = s.stack ∨ (∃ a, s.stack = a :: t.stack) ∨
      (s.cfg.stackDepth ≠ some s.stack.length ∧ t.stack = (s.PC + 2) :: s.stack) := by
  cases h
  case ret a rest hs => exact .inr (.inl ⟨a, hs⟩)
  case call nnn hroom => exact .inr (.inr ⟨hroom, rfl⟩)
  all_goals exact .inl (by simp [State.showSprite])

end Effect

end

/-! ### The statements -/

/-- Settles O15: by the outcomes of an instruction, of which a halt does not leave the machine running. -/
theorem instructionsAdvanceByOpcodeWidths : Obligations.InstructionsAdvanceByOpcodeWidths := by
  unfold Obligations.InstructionsAdvanceByOpcodeWidths
  intro i s t hr h ht
  exact (effect_of_exec h).PC_cases (ht.trans hr.symm) hr

/-- Settles O19: the address that the RET pops is the one that the CALL pushed, above the old stack. -/
theorem retAfterCallResumes : Obligations.RetAfterCallResumes := by
  unfold Obligations.RetAfterCallResumes
  intro nnn s t u hroom hcall hret
  obtain rfl := Host.Outcome.next.inj ((exec_call_below nnn hroom).symm.trans hcall)
  obtain rfl := Host.Outcome.next.inj ((exec_ret_cons rfl).symm.trans hret)
  exact ⟨BitVec.toNat_add s.PC 2, by constructor <;> simp⟩

/-- Settles O30: by the outcomes of an instruction, whose register writes all go to its destinations. -/
theorem onlyDestinationsChange : Obligations.OnlyDestinationsChange := by
  unfold Obligations.OnlyDestinationsChange
  intro i s t r h hne
  by_contra hr
  exact hne ((effect_of_exec h).getV_eq hr)

/-- Settles O52: by the outcomes of an instruction, part by part. -/
theorem eachPartHasItsWriters : Obligations.EachPartHasItsWriters := by
  unfold Obligations.EachPartHasItsWriters
  intro i s t h
  have he := effect_of_exec h
  obtain ⟨hcfg, hschedule, hpace, hrounds, hheld, htones⟩ := exec_keeps i s t h
  exact ⟨he.writes_I, he.writes_stack, he.writes_DT, he.writes_ST, fun r c => he.writes_pixel, he.writes_latch,
    fun a => he.writes_mem, he.writes_draws, hheld, hcfg, hschedule, hpace, hrounds, htones⟩

end Sys2Proof.Machine
end

section
/-! PROOFS. Memory over a step, the digit region, and the invariant (spec 20_memory.md, 10_state.md R24 to R31, 70_reset_and_hazards.md). -/

namespace Sys2Proof.Machine

/-! ### What a step does to memory -/

/-- All that a step does to memory: nothing, or a checked run of byte stores from I up. -/
theorem step_mem_cases {s t : State} (h : step s = .next t) :
    t.mem = s.mem ∨ ∃ bytes, storeCheck s.cfg s.I.toNat bytes.length = none ∧ t.mem = s.mem.writeBytes s.I.toNat bytes := by
  obtain ⟨-, hcases⟩ := step_cases s t h
  rcases hcases with ⟨-, htick⟩ | ⟨-, rfl⟩ | ⟨-, rfl⟩ | ⟨k, -, rfl⟩ | ⟨k, -, rfl⟩ | ⟨-, rfl⟩
  · rcases tick_cases _ _ htick with ⟨-, rfl⟩ | ⟨-, -, rfl⟩ | ⟨-, i, -, he⟩
    · exact .inl rfl
    · exact .inl rfl
    · exact exec_mem_cases i s.popTurn t he
  · exact .inl (by unfold delayTick; split <;> rfl)
  · exact .inl (by unfold soundTick; split <;> rfl)
  · exact .inl rfl
  · exact .inl rfl
  · exact .inl rfl

/-- A store that its check lets through lies within memory. -/
theorem length_le_of_storeCheck {c : Config} {a : Nat} {bytes : List Byte} (h : storeCheck c a bytes.length = none) :
    bytes = [] ∨ a + bytes.length ≤ 0x1000 := by
  rw [← List.length_eq_zero_iff]
  exact ((storeCheck_none ..).mp h).1

/-- A store that its check lets through leaves every byte of the digit region. -/
theorem read_writeBytes_of_inFont {c : Config} {m : Memory} {a b : Nat} {bytes : List Byte} (hm : m.wf = true)
    (hcheck : storeCheck c a bytes.length = none) (hb : inFont c b = true) : (m.writeBytes a bytes).read b = m.read b := by
  rcases length_le_of_storeCheck hcheck with rfl | hlen
  · rfl
  · obtain ⟨-, houtside⟩ := (storeCheck_none ..).mp hcheck
    rw [read_writeBytes b hm hlen, if_neg]
    rintro ⟨hlo, hhi⟩
    have hfalse := houtside (b - a) (by omega)
    rw [Nat.add_sub_cancel' hlo, hb] at hfalse
    exact Bool.noConfusion hfalse

theorem writeBytes_wf_of_storeCheck {c : Config} {m : Memory} {a : Nat} {bytes : List Byte} (hm : m.wf = true)
    (hcheck : storeCheck c a bytes.length = none) : (m.writeBytes a bytes).wf = true := by
  rcases length_le_of_storeCheck hcheck with rfl | hlen
  · exact hm
  · exact writeBytes_wf hm hlen

/-! ### Canonical memories as data -/

/-- The lowest listed address of a canonical memory does not read as if it were unlisted. -/
theorem read_first_ne {lo k : Nat} {b : Byte} {m : Memory} (h : Memory.wfFrom lo ((k, b) :: m) = true) :
    Memory.read ((k, b) :: m) k ≠ resetByte k := by
  obtain ⟨-, -, hb, -⟩ := (wfFrom_cons ..).mp h
  rwa [read_cons, if_pos rfl]

/-- Two canonical memories that read alike list the same lowest address with the same byte, and so on up. -/
theorem eq_of_read_eq {lo : Nat} : ∀ {m n : Memory}, m.wfFrom lo = true → n.wfFrom lo = true →
    (∀ a, a < 0x1000 → m.read a = n.read a) → m = n
  | [], [], _, _, _ => rfl
  | [], (k, b) :: n, _, hn, h => by
    obtain ⟨-, hk, -⟩ := (wfFrom_cons ..).mp hn
    exact absurd (h k hk).symm (read_first_ne hn)
  | (k, b) :: m, [], hm, _, h => by
    obtain ⟨-, hk, -⟩ := (wfFrom_cons ..).mp hm
    exact absurd (h k hk) (read_first_ne hm)
  | (k, b) :: m, (k', b') :: n, hm, hn, h => by
    obtain ⟨-, hk, hb, hm'⟩ := (wfFrom_cons ..).mp hm
    obtain ⟨-, hk', hb', hn'⟩ := (wfFrom_cons ..).mp hn
    rcases Nat.lt_trichotomy k k' with hlt | rfl | hlt
    · have hunlisted := read_below hlt (m := (k', b') :: n) ((wfFrom_cons ..).mpr ⟨Nat.le_refl k', hk', hb', hn'⟩)
      exact absurd ((h k hk).trans hunlisted) (read_first_ne hm)
    · have hbytes : b = b' := by simpa [read_cons] using h k hk
      have hrest : m = n := eq_of_read_eq hm' hn' fun a ha => by
        rcases eq_or_ne a k with rfl | hne
        · rw [read_below (Nat.lt_succ_self a) hm', read_below (Nat.lt_succ_self a) hn']
        · simpa [read_cons, hne] using h a ha
      rw [hbytes, hrest]
    · have hunlisted := read_below hlt (m := (k, b) :: m) ((wfFrom_cons ..).mpr ⟨Nat.le_refl k, hk, hb, hm'⟩)
      exact absurd ((h k' hk').symm.trans hunlisted) (read_first_ne hn)

/-! ### The statements on memory -/

/-- Settles O36: the law of a run of stores. -/
theorem storesChangeOnlyTheBytesWritten : Obligations.StoresChangeOnlyTheBytesWritten := by
  unfold Obligations.StoresChangeOnlyTheBytesWritten
  intro m a b bytes hm hlen
  exact read_writeBytes b hm hlen

/-- Settles O37: by induction on the two lists, from the lowest address up. -/
theorem equalMemoriesAreEqualData : Obligations.EqualMemoriesAreEqualData := by
  unfold Obligations.EqualMemoriesAreEqualData
  intro m n hm hn h
  exact eq_of_read_eq hm hn h

/-- Settles O38: the store did not halt, so that both bytes at the new PC are the block's. -/
theorem storedBytesAreFetched : Obligations.StoredBytesAreFetched := by
  unfold Obligations.StoredBytesAreFetched
  intro x s t r hrx hm hrun h ht hpc
  have hlen := regBlock_length s x
  rcases storeAtI_cases (.ldMemVx x) (s.regBlock x) s t h with ⟨hcheck, rfl⟩ | ⟨q, -, rfl⟩
  · obtain ⟨hrange, -⟩ := (storeCheck_none ..).mp hcheck
    have hread : ∀ j : Reg, j ≤ x → Memory.read (s.mem.writeBytes s.I.toNat (s.regBlock x)) (s.I.toNat + j.val) = s.getV j := by
      intro j hj
      have : j.val ≤ x.val := hj
      rw [read_writeBytes _ hm (by omega), if_pos (by omega), Nat.add_sub_cancel_left, regBlock_getD s x j hj]
    have hr : r ≤ x := Nat.le_of_succ_le hrx
    rw [fetchWord, hpc]
    exact congrArg₂ wordOfBytes (hread r hr) (hread ⟨r.val + 1, _⟩ hrx)
  · exact absurd ht Run.noConfusion

/-- Settles O39: a step writes memory only by a store whose check refuses the digit region. -/
theorem noStepChangesTheDigitRegion : Obligations.NoStepChangesTheDigitRegion := by
  unfold Obligations.NoStepChangesTheDigitRegion
  intro s t a hm h ha
  rcases step_mem_cases h with hsame | ⟨bytes, hcheck, hstore⟩
  · rw [hsame]
  · rw [hstore, read_writeBytes_of_inFont hm hcheck ha]

/-! ### The invariant over a step -/

/-- A state that keeps the launch parameters, PC and the stack keeps the invariant when its memory is canonical. -/
theorem Inv.of_eq {s t : State} (hs : Inv s) (hmem : t.mem.wf = true) (hcfg : t.cfg = s.cfg) (hpc : t.PC = s.PC)
    (hstack : t.stack = s.stack) : Inv t where
  mem := hmem
  cfg := hcfg ▸ hs.cfg
  PC := hpc ▸ hs.PC
  stack := hstack ▸ hs.stack
  depth d hd := hstack ▸ hs.depth d (hcfg ▸ hd)

/-- An instruction fetched from memory keeps the invariant when it keeps memory canonical: a RET shortens the stack, and a CALL
below the depth pushes an address after its own, which is at most 0x1000. -/
theorem Inv.of_effect {i : Instr} {s t : State} (hs : Inv s) (hp : s.PC.toNat < 0x0FFF) (hmem : t.mem.wf = true)
    (hcfg : t.cfg = s.cfg) (h : Effect s i t) : Inv t where
  mem := hmem
  cfg := hcfg ▸ hs.cfg
  PC := h.PC_le hp hs.stack
  stack a ha := by
    rcases h.stack_cases with hsame | ⟨b, hpop⟩ | ⟨-, hpush⟩
    · exact hs.stack a (hsame ▸ ha)
    · exact hs.stack a (hpop ▸ List.mem_cons_of_mem b ha)
    · rw [hpush] at ha
      rcases List.mem_cons.mp ha with rfl | ha
      · rw [BitVec.toNat_add]
        exact (Nat.mod_le _ _).trans (Nat.add_le_add_right (Nat.le_of_lt_succ hp) 2)
      · exact hs.stack a ha
  depth d hd := by
    rw [hcfg] at hd
    have hle := hs.depth d hd
    rcases h.stack_cases with hsame | ⟨b, hpop⟩ | ⟨hroom, hpush⟩
    · rwa [hsame]
    · rw [hpop, List.length_cons] at hle
      exact Nat.le_of_succ_le hle
    · have hne : s.stack.length ≠ d := fun he => hroom (he ▸ hd)
      rw [hpush, List.length_cons]
      exact Nat.lt_of_le_of_ne hle hne

/-- Settles O59: memory by its stores' checks; the timers and the host leave the rest, and so does the CPU but for its instruction. -/
theorem everyStepKeepsTheInvariant : Obligations.EveryStepKeepsTheInvariant := by
  unfold Obligations.EveryStepKeepsTheInvariant
  intro s t hs h
  have hmem : t.mem.wf = true := by
    rcases step_mem_cases h with hsame | ⟨bytes, hcheck, hstore⟩
    · rw [hsame, hs.mem]
    · rw [hstore, writeBytes_wf_of_storeCheck hs.mem hcheck]
  obtain ⟨-, hcases⟩ := step_cases s t h
  rcases hcases with ⟨-, htick⟩ | ⟨-, rfl⟩ | ⟨-, rfl⟩ | ⟨k, -, rfl⟩ | ⟨k, -, rfl⟩ | ⟨-, rfl⟩
  · rcases tick_cases _ _ htick with ⟨-, rfl⟩ | ⟨-, -, rfl⟩ | ⟨hp, i, -, he⟩
    · exact hs.of_eq hmem rfl rfl rfl
    · exact hs.of_eq hmem rfl rfl rfl
    · obtain ⟨hcfg, -⟩ := exec_keeps i _ t he
      have hpop : Inv s.popTurn := hs.of_eq hs.mem rfl rfl rfl
      exact hpop.of_effect hp hmem hcfg (effect_of_exec he)
  · have hb := sameBut_delayTick (parts := [.DT]) s.popTurn (by decide)
    exact hs.of_eq hmem (hb.cfg (by decide)) (hb.PC (by decide)) (hb.stack (by decide))
  · have hb := sameBut_soundTick (parts := [.ST, .tones]) s.popTurn (by decide) (by decide)
    exact hs.of_eq hmem (hb.cfg (by decide)) (hb.PC (by decide)) (hb.stack (by decide))
  · exact hs.of_eq hmem rfl rfl rfl
  · exact hs.of_eq hmem rfl rfl rfl
  · exact hs.of_eq hmem rfl rfl rfl

/-! ### The invariant at the start (spec 70_reset_and_hazards.md R280) -/

/-- Settles O58: memory is built in canonical form, PC is 0x200 and the stack is empty. -/
theorem invariantHoldsAfterEveryLaunch : Obligations.InvariantHoldsAfterEveryLaunch := by
  unfold Obligations.InvariantHoldsAfterEveryLaunch
  intro p s hwf hs
  obtain ⟨-, rfl⟩ := (launch_some p s).mp hs
  obtain ⟨hfont, -, -⟩ := p.wf_iff.mp hwf
  exact
    { mem := ofBytes_wf p.byteAt
      cfg := decide_eq_true hfont
      PC := by rw [launched_PC]; decide
      stack := List.forall_mem_nil _
      depth := fun d _ => Nat.zero_le d }

/-- By default every byte of the launched memory is the one that an unlisted address reads as (D3, D4). -/
theorem byteAt_default (a : Nat) : ({} : Launch).byteAt a = resetByte a := by
  by_cases ha : inFont Config.default a = true
  · exact if_pos ha
  · have habove : fontGlyphs.length ≤ a := by
      rw [inFont_iff] at ha
      exact Nat.le_of_not_lt fun hlt => ha ⟨Nat.zero_le a, (Nat.zero_add _).symm ▸ hlt⟩
    rw [resetByte, List.getD_eq_default _ _ habove]
    exact Launch.byteAt_outside (Bool.eq_false_of_not_eq_true ha) (by simp; omega)

/-- Settles O56: the default launch lists no byte of memory, and its other fields are those of reset. -/
theorem resetIsTheDefaultLaunch : Obligations.ResetIsTheDefaultLaunch := by
  unfold Obligations.ResetIsTheDefaultLaunch
  have hmem : Memory.ofBytes ({} : Launch).byteAt = [] :=
    eq_of_read_eq (ofBytes_wf _) (n := []) rfl fun a ha => (read_ofBytes _ ha).trans (byteAt_default a)
  rw [launch_some]
  refine ⟨Nat.zero_le _, ?_⟩
  rw [State.launched, hmem]
  rfl

/-- Settles O57: reset is a launch that the spec describes. -/
theorem invariantHoldsAtReset : Obligations.InvariantHoldsAtReset := by
  unfold Obligations.InvariantHoldsAtReset
  exact invariantHoldsAfterEveryLaunch {} State.reset (by decide) resetIsTheDefaultLaunch

end Sys2Proof.Machine
end

section
/-! PROOFS. Steps and runs: totality, and the order and the fairness of the turns (spec 40_execution_cycle.md, 60_exceptions.md R248). -/

namespace Sys2Proof.Machine

/-! ### One step -/

/-- A CPU turn at a fetched instruction is that instruction's execution, at the state with the turn taken. -/
theorem step_exec {s : State} {i : Instr} (hr : s.run = .running) (hc : s.cpuTurn = true) (hp : s.PC.toNat < 0x0FFF)
    (hi : instrAtPC s = some i) : step s = exec i s.popTurn := by
  rw [step_cpu s hr hc, tick_in_range s.popTurn hp, popTurn_instrAtPC, hi]

/-- A machine that differs in neither memory, PC nor the launch parameters is at the same instruction. -/
theorem SameBut.instrAtPC_eq {parts : List Part} {s t : State} (h : SameBut parts s t) (hm : .mem ∉ parts) (hp : .PC ∉ parts)
    (hc : .cfg ∉ parts) : instrAtPC t = instrAtPC s := by
  rw [instrAtPC, instrAtPC, fetchWord, fetchWord, h.cfg hc, h.PC hp, h.mem hm, h.mem hm]

/-- Each agent's turn ends in a next state. -/
theorem takeTurn_next (u : Turn) (s : State) : ∃ t, takeTurn u s = .next t := by
  cases u
  case cpu =>
    rcases Nat.lt_or_ge s.PC.toNat 0x0FFF with hp | hp
    · cases hi : instrAtPC s with
      | none => exact ⟨_, tick_unhandled s hp hi⟩
      | some i =>
        obtain ⟨t, ht, -⟩ := exec_next i s
        exact ⟨t, by rw [takeTurn, tick_in_range s hp, hi]; exact ht⟩
    · exact ⟨_, tick_out_of_range s hp⟩
  all_goals exact ⟨_, rfl⟩

theorem step_next {s : State} (hr : s.run = .running) : ∃ t, step s = .next t := by
  cases ht : s.turns with
  | nil => exact absurd ht (turns_ne_nil s)
  | cons u rest =>
    rw [step_turn s u hr (by rw [ht]; rfl)]
    exact takeTurn_next u s.popTurn

theorem cpuTurn_of_cons {s : State} {rest : List Turn} (h : s.schedule = .cpu :: rest) : s.cpuTurn = true := by
  rw [cpuTurn_iff, turns_of_cons s h, List.head?_cons]

theorem popTurn_schedule_of_cons {s : State} {u : Turn} {rest : List Turn} (h : s.schedule = u :: rest) :
    s.popTurn.schedule = rest := by
  rw [popTurn_schedule, turns_of_cons s h, List.tail_cons]

/-- The CPU's turn after a step that leaves `run`, memory, PC and the launch parameters runs the instruction at PC before that step. -/
theorem step_exec_after {parts : List Part} {s t : State} {i : Instr} {rest : List Turn} (h : SameBut parts s t)
    (hparts : Part.run ∉ parts ∧ .mem ∉ parts ∧ .PC ∉ parts ∧ .cfg ∉ parts) (hr : s.run = .running) (hp : s.PC.toNat < 0x0FFF)
    (hi : instrAtPC s = some i) (hs : t.schedule = .cpu :: rest) : step t = exec i t.popTurn := by
  obtain ⟨hrun, hmem, hPC, hcfg⟩ := hparts
  exact step_exec ((h.run hrun).trans hr) (cpuTurn_of_cons hs) (h.PC hPC ▸ hp) ((h.instrAtPC_eq hmem hPC hcfg).trans hi)

/-! ### Runs -/

/-- k steps of the machine. -/
def runSteps (k : Nat) (s : State) : Result := Host.Core.run Sys2Proof.core k s

theorem core_run_succ (M : Host.Core) {s t : M.State} (h : M.step s = .next t) (k : Nat) : M.run (k + 1) s = M.run k t := by
  rw [Host.Core.run, h]

theorem core_run_succ_inv (M : Host.Core) {s t : M.State} {k : Nat} (h : M.run (k + 1) s = .next t) :
    ∃ u, M.step s = .next u ∧ M.run k u = .next t := by
  rw [Host.Core.run] at h
  split at h
  · next u hu => exact ⟨u, hu, h⟩
  · cases h
  · cases h

theorem runSteps_zero (s : State) : runSteps 0 s = .next s := rfl

theorem runSteps_succ {s t : State} (h : step s = .next t) (k : Nat) : runSteps (k + 1) s = runSteps k t :=
  core_run_succ Sys2Proof.core h k

/-- A run of k + 1 steps that ends in a state is a step and a run of k from there. -/
theorem runSteps_succ_inv {s t : State} {k : Nat} (h : runSteps (k + 1) s = .next t) :
    ∃ u, step s = .next u ∧ runSteps k u = .next t := core_run_succ_inv Sys2Proof.core h

theorem runSteps_two {s t u : State} (h : step s = .next t) (h' : step t = .next u) : runSteps 2 s = .next u := by
  rw [runSteps_succ h, runSteps_succ h', runSteps_zero]

theorem runSteps_add {s t : State} {k : Nat} (h : runSteps k s = .next t) (m : Nat) :
    runSteps (k + m) s = runSteps m t := by
  induction k generalizing s with
  | zero =>
    obtain rfl := Host.Outcome.next.inj h
    rw [Nat.zero_add]
  | succ k ih =>
    obtain ⟨u, hu, hrun⟩ := runSteps_succ_inv h
    rw [Nat.succ_add, runSteps_succ hu, ih hrun]

/-! ### The turns of a run (spec 60_exceptions.md R248; log 5) -/

theorem turns_of_append {s : State} {l : List Turn} {u : Turn} {rest : List Turn} (h : s.schedule = l ++ u :: rest) :
    s.turns = l ++ u :: rest := by
  cases l with
  | nil => exact turns_of_cons s h
  | cons => exact turns_of_cons s h

/-- Turns are taken in order: after as many steps as stand before it a turn is the next one, and those after it follow. -/
theorem turns_of_run {u : Turn} {rest : List Turn} : ∀ {l : List Turn} {s t : State}, s.turns = l ++ u :: rest →
    runSteps l.length s = .next t → t.turns = u :: rest
  | [], s, t, hs, h => Host.Outcome.next.inj h ▸ hs
  | v :: l, s, t, hs, h => by
    obtain ⟨w, hstep, hrun⟩ := runSteps_succ_inv h
    obtain ⟨hschedule, -⟩ := step_turns s w hstep
    rw [hs, List.cons_append, List.tail_cons] at hschedule
    exact turns_of_run (turns_of_append hschedule) hrun

section
variable {s : State} (hlive : ∀ m t, runSteps m s = .next t → t.run = .running)
include hlive

/-- A machine that never halts runs on. -/
theorem run_next (m : Nat) : ∃ t, runSteps m s = .next t := by
  induction m with
  | zero => exact ⟨s, rfl⟩
  | succ m ih =>
    obtain ⟨t, ht⟩ := ih
    obtain ⟨u, hu⟩ := step_next (hlive m t ht)
    exact ⟨u, by rw [runSteps_add ht 1, runSteps_succ hu 0, runSteps_zero]⟩

theorem reaches_turn {m : Nat} {t : State} {l : List Turn} {u : Turn} {rest : List Turn}
    (ht : runSteps m s = .next t) (hturns : t.turns = l ++ u :: rest) :
    ∃ w, runSteps (m + l.length) s = .next w ∧ w.turns = u :: rest := by
  obtain ⟨w, hw⟩ := run_next hlive (m + l.length)
  exact ⟨w, hw, turns_of_run hturns (runSteps_add ht l.length ▸ hw)⟩

/-- The present round is spent at some time: its last turn comes, and is taken. -/
theorem reaches_spent_round (n : Nat) : ∃ m t, n ≤ m ∧ runSteps m s = .next t ∧ t.schedule = [] := by
  obtain ⟨t, ht⟩ := run_next hlive n
  obtain ⟨l, v, hlast⟩ := (List.eq_nil_or_concat' t.turns).resolve_left (turns_ne_nil t)
  obtain ⟨w, hw, hturns⟩ := reaches_turn hlive ht hlast
  obtain ⟨x, hx⟩ := step_next (hlive _ w hw)
  obtain ⟨hschedule, -⟩ := step_turns w x hx
  refine ⟨n + l.length + 1, x, by omega, by rw [runSteps_add hw 1, runSteps_succ hx 0, runSteps_zero], ?_⟩
  rw [hschedule, hturns, List.tail_cons]

/-- Each of the CPU and the timers has a turn at some time from step n on: the next round has one for it. -/
theorem reaches_agent {u : Turn} (hu : u ∈ [Turn.cpu, .delayTimer, .soundTimer]) (n : Nat) :
    ∃ m t, n ≤ m ∧ runSteps m s = .next t ∧ t.turns.head? = some u := by
  obtain ⟨m, t, hn, ht, hspent⟩ := reaches_spent_round hlive n
  obtain ⟨l, rest, hround⟩ := List.append_of_mem (mem_nextRound t hu)
  obtain ⟨w, hw, hturns⟩ := reaches_turn hlive ht ((turns_of_nil t hspent).trans hround)
  exact ⟨m + l.length, w, by omega, hw, by rw [hturns, List.head?_cons]⟩

end

/-! ### The statements -/

/-- Settles O7: the two bytes at PC are the fetched word. -/
theorem stepRunsTheDecodedInstruction : Obligations.StepRunsTheDecodedInstruction := by
  unfold Obligations.StepRunsTheDecodedInstruction
  intro s i hr hc hp hdecode
  exact step_exec hr hc hp ((decode_ok ..).mp hdecode)

/-- Settles O13: a halted machine's only answer. -/
theorem haltedMachineAnswersItsReport : Obligations.HaltedMachineAnswersItsReport := by
  unfold Obligations.HaltedMachineAnswersItsReport
  intro s reason addr opcode h
  exact step_halted s reason addr opcode h

/-- Settles O14: no instruction and no agent stops without a next state; turns are taken in order; a run that never halts spends
every round, and the next round has a turn for each agent. -/
theorem runningMachineAlwaysSteps : Obligations.RunningMachineAlwaysSteps := by
  unfold Obligations.RunningMachineAlwaysSteps
  refine ⟨?exec, fun s => step_next, ?inOrder, ?fair⟩
  case exec =>
    intro i s
    obtain ⟨t, ht, -⟩ := exec_next i s
    exact ⟨t, ht⟩
  case inOrder =>
    intro s t turns rest k hs hk hrun
    have hsplit : s.schedule = turns.take k ++ turns[k] :: (turns.drop (k + 1) ++ rest) := by
      rw [hs, ← List.cons_append, ← List.drop_eq_getElem_cons hk, ← List.append_assoc, List.take_append_drop]
    have hlen : (turns.take k).length = k := List.length_take_of_le hk.le
    rw [turns_of_run (turns_of_append hsplit) (hlen.symm ▸ hrun), List.head?_cons, List.getElem?_eq_getElem hk]
  case fair =>
    intro s u n hu _
    by_cases hlive : ∀ m t, runSteps m s = .next t → t.run = .running
    · obtain ⟨m, t, hn, ht, hhead⟩ := reaches_agent hlive hu n
      exact .inr ⟨m, t, hn, ht, hlive m t ht, hhead⟩
    · push Not at hlive
      exact .inl hlive

end Sys2Proof.Machine
end

section
/-! PROOFS. The timers over time, and against the instructions that write them (spec 60_exceptions.md R246 to R249). -/

namespace Sys2Proof.Machine

/-! ### Many turns of one timer -/

/-- The state with other turns left of the present round. -/
def State.setSchedule (s : State) (l : List Turn) : State := { s with schedule := l }

theorem setSchedule_DT (s : State) (l : List Turn) : (s.setSchedule l).DT = s.DT := rfl

theorem setSchedule_ST (s : State) (l : List Turn) : (s.setSchedule l).ST = s.ST := rfl

theorem setSchedule_eq_self {s : State} {l : List Turn} (h : s.schedule = l) : s.setSchedule l = s := by
  subst h
  rfl

/-- n turns of an agent whose turn neither halts nor looks at the schedule do its work n times and leave the turns after them. -/
theorem run_agent_turns {u : Turn} {f : State → State} (hu : ∀ s, takeTurn u s = .next (f s)) (hrun : ∀ s, (f s).run = s.run)
    (hf : ∀ s l, f (s.setSchedule l) = (f s).setSchedule l) : ∀ (n : Nat) (s : State) (rest : List Turn), s.run = .running →
      s.schedule = List.replicate n u ++ rest → runSteps n s = .next ((f^[n] s).setSchedule rest)
  | 0, s, rest, _, hs => congrArg Host.Outcome.next (setSchedule_eq_self hs).symm
  | n + 1, s, rest, hr, hs => by
    have hcons : s.schedule = u :: (List.replicate n u ++ rest) := hs
    have hstep : step s = .next ((f s).setSchedule (List.replicate n u ++ rest)) := by
      rw [step_agent s u _ hr hcons, popTurn_of_cons s hcons, hu]
      exact congrArg Host.Outcome.next (hf s _)
    have hcomm : f^[n] ((f s).setSchedule (List.replicate n u ++ rest)) = (f^[n] (f s)).setSchedule _ :=
      Function.Commute.iterate_left (g := fun s : State => s.setSchedule (List.replicate n u ++ rest)) (fun s => hf s _) n (f s)
    have ih := run_agent_turns hu hrun hf n ((f s).setSchedule (List.replicate n u ++ rest)) rest ((hrun s).trans hr) rfl
    rw [runSteps_succ hstep, ih, hcomm, Function.iterate_succ_apply]
    rfl

theorem delayTick_setSchedule (s : State) (l : List Turn) : delayTick (s.setSchedule l) = (delayTick s).setSchedule l := by
  unfold delayTick
  rw [setSchedule_DT]
  split <;> rfl

theorem soundTick_setSchedule (s : State) (l : List Turn) : soundTick (s.setSchedule l) = (soundTick s).setSchedule l := by
  unfold soundTick
  rw [setSchedule_ST]
  split <;> rfl

theorem sameBut_setSchedule {parts : List Part} (s : State) (l : List Turn) (h : .schedule ∈ parts) :
    SameBut parts s (s.setSchedule l) := by
  constructor <;> first | exact fun hn => absurd h hn | (intros; rfl)

theorem SameBut.iterate {parts : List Part} {f : State → State} (hf : ∀ s, SameBut parts s (f s)) :
    ∀ (n : Nat) (s : State), SameBut parts s (f^[n] s)
  | 0, s => SameBut.refl parts s
  | n + 1, s => by
    rw [Function.iterate_succ_apply]
    exact (hf s).trans (SameBut.iterate hf n (f s))

theorem delayTick_iterate_DT_toNat : ∀ (n : Nat) (s : State), (delayTick^[n] s).DT.toNat = s.DT.toNat - n
  | 0, _ => rfl
  | n + 1, s => by
    rw [Function.iterate_succ_apply, delayTick_iterate_DT_toNat n, delayTick_DT_toNat]
    omega

theorem soundTick_iterate_ST_toNat : ∀ (n : Nat) (s : State), (soundTick^[n] s).ST.toNat = s.ST.toNat - n
  | 0, _ => rfl
  | n + 1, s => by
    rw [Function.iterate_succ_apply, soundTick_iterate_ST_toNat n, soundTick_ST_toNat]
    omega

theorem soundTick_iterate_tones : ∀ (n : Nat) (s : State), (soundTick^[n] s).tones = s.tones + min n s.ST.toNat
  | 0, s => by rw [Nat.zero_min]; rfl
  | n + 1, s => by
    rw [Function.iterate_succ_apply, soundTick_iterate_tones n, soundTick_tones, soundTick_ST_toNat]
    split <;> omega

/-! ### The statements -/

/-- Settles O46: the timer agent lowers DT, the other agents leave it, and of the CPU's instructions only LD DT, Vx writes it. -/
theorem onlyLdDTRaisesTheDelayTimer : Obligations.OnlyLdDTRaisesTheDelayTimer := by
  unfold Obligations.OnlyLdDTRaisesTheDelayTimer
  intro s t h hlt
  obtain ⟨-, hcases⟩ := step_cases s t h
  rcases hcases with ⟨hc, htick⟩ | ⟨-, rfl⟩ | ⟨-, rfl⟩ | ⟨k, -, rfl⟩ | ⟨k, -, rfl⟩ | ⟨-, rfl⟩
  · rcases tick_cases _ _ htick with ⟨-, rfl⟩ | ⟨-, -, rfl⟩ | ⟨-, i, hi, he⟩
    · exact absurd hlt (Nat.lt_irrefl _)
    · exact absurd hlt (Nat.lt_irrefl _)
    · obtain ⟨x, rfl⟩ := (effect_of_exec he).writes_DT fun heq => absurd hlt (heq ▸ Nat.lt_irrefl _)
      exact ⟨hc, x, hi⟩
  · rw [delayTick_DT_toNat, popTurn_DT] at hlt
    omega
  · rw [(sameBut_soundTick (parts := [.ST, .tones]) s.popTurn (by decide) (by decide)).DT (by decide)] at hlt
    exact absurd hlt (Nat.lt_irrefl _)
  · exact absurd hlt (Nat.lt_irrefl _)
  · exact absurd hlt (Nat.lt_irrefl _)
  · exact absurd hlt (Nat.lt_irrefl _)

/-- Settles O47: n turns are n ticks, of which each takes its timer down by one while it is above zero. -/
theorem timersCountDown : Obligations.TimersCountDown := by
  unfold Obligations.TimersCountDown
  intro n s rest hr
  constructor
  · intro hs
    have hsame : SameBut [.DT, .schedule] s (delayTick^[n] s) := SameBut.iterate (fun s => sameBut_delayTick s (by decide)) n s
    exact ⟨_, run_agent_turns (fun _ => rfl) delayTick_run delayTick_setSchedule n s rest hr hs, delayTick_iterate_DT_toNat n s,
      rfl, hsame.trans (sameBut_setSchedule _ rest (by decide))⟩
  · intro hs
    have hsame : SameBut [.ST, .tones, .schedule] s (soundTick^[n] s) :=
      SameBut.iterate (fun s => sameBut_soundTick s (by decide) (by decide)) n s
    exact ⟨_, run_agent_turns (fun _ => rfl) soundTick_run soundTick_setSchedule n s rest hr hs, soundTick_iterate_ST_toNat n s,
      soundTick_iterate_tones n s, rfl, hsame.trans (sameBut_setSchedule _ rest (by decide))⟩

/-- Settles O48: the timer's tick leaves Vx and the instruction at PC, and after the write it ticks down the value written. -/
theorem timerWriteRacesTheTick : Obligations.TimerWriteRacesTheTick := by
  unfold Obligations.TimerWriteRacesTheTick
  intro s x rest hr hp
  refine ⟨fun hi hs => ?delayThenWrite, fun hi hs => ?writeThenDelay, fun hi hs => ?soundThenWrite, fun hi hs => ?writeThenSound⟩
  case delayThenWrite =>
    have hsame : SameBut [.DT, .schedule, .rounds] s (delayTick s.popTurn) :=
      (sameBut_popTurn s (by decide) (by decide)).trans (sameBut_delayTick s.popTurn (by decide))
    have hnext := (delayTick_schedule s.popTurn).trans (popTurn_schedule_of_cons hs)
    exact ⟨_, runSteps_two (step_agent s .delayTimer _ hr hs) (step_exec_after hsame (by decide) hr hp hi hnext),
      hsame.V (by decide) x⟩
  case writeThenDelay =>
    exact ⟨_, runSteps_two (step_exec hr (cpuTurn_of_cons hs) hp hi) (step_agent _ .delayTimer rest hr (popTurn_schedule_of_cons hs)),
      delayTick_DT_toNat _⟩
  case soundThenWrite =>
    have hsame : SameBut [.ST, .tones, .schedule, .rounds] s (soundTick s.popTurn) :=
      (sameBut_popTurn s (by decide) (by decide)).trans (sameBut_soundTick s.popTurn (by decide) (by decide))
    have hnext := (soundTick_schedule s.popTurn).trans (popTurn_schedule_of_cons hs)
    exact ⟨_, runSteps_two (step_agent s .soundTimer _ hr hs) (step_exec_after hsame (by decide) hr hp hi hnext),
      hsame.V (by decide) x⟩
  case writeThenSound =>
    exact ⟨_, runSteps_two (step_exec hr (cpuTurn_of_cons hs) hp hi) (step_agent _ .soundTimer rest hr (popTurn_schedule_of_cons hs)),
      soundTick_ST_toNat _⟩

end Sys2Proof.Machine
end

section
/-! PROOFS. The host's steps: the keys, and the word it places for the next fetch (spec 60_exceptions.md R250; log 10). -/

namespace Sys2Proof.Machine

theorem sameBut_keyPress {parts : List Part} (k : Key) (s : State) (hh : .held ∈ parts) (hl : .latch ∈ parts) :
    SameBut parts s (keyPress k s) := by
  constructor <;> simp [keyPress, hh, hl]

theorem sameBut_keyRelease {parts : List Part} (k : Key) (s : State) (hh : .held ∈ parts) : SameBut parts s (keyRelease k s) := by
  constructor <;> simp [keyRelease, hh]

theorem tick_held {s t : State} (h : tick s = .next t) : t.held = s.held := by
  rcases tick_cases s t h with ⟨-, rfl⟩ | ⟨-, -, rfl⟩ | ⟨-, i, -, he⟩
  · rfl
  · rfl
  · obtain ⟨-, -, -, -, hheld, -⟩ := exec_keeps i s t he
    exact hheld

/-- Settles O44: both key steps write one bit of `held`; no instruction and no other agent writes any. -/
theorem hostKeyStepsUpdateHeldAndLatch : Obligations.HostKeyStepsUpdateHeldAndLatch := by
  unfold Obligations.HostKeyStepsUpdateHeldAndLatch
  intro s k hr
  refine ⟨fun hu => ?press, fun hu => ?release, fun t h hne => ?others⟩
  case press =>
    have hheld : ∀ j, (keyPress k s.popTurn).isHeld j = if j = k then true else s.isHeld j :=
      fun j => isHeld_setHeld s.popTurn k j true
    exact ⟨_, step_turn s _ hr hu, (hheld k).trans (if_pos rfl), rfl, fun j hj => (hheld j).trans (if_neg hj), rfl,
      (sameBut_popTurn s (by decide) (by decide)).trans (sameBut_keyPress k s.popTurn (by decide) (by decide))⟩
  case release =>
    have hheld : ∀ j, (keyRelease k s.popTurn).isHeld j = if j = k then false else s.isHeld j :=
      fun j => isHeld_setHeld s.popTurn k j false
    exact ⟨_, step_turn s _ hr hu, (hheld k).trans (if_pos rfl), fun j hj => (hheld j).trans (if_neg hj), rfl,
      (sameBut_popTurn s (by decide) (by decide)).trans (sameBut_keyRelease k s.popTurn (by decide))⟩
  case others =>
    obtain ⟨-, hcases⟩ := step_cases s t h
    rcases hcases with ⟨-, htick⟩ | ⟨-, rfl⟩ | ⟨-, rfl⟩ | ⟨j, hj, rfl⟩ | ⟨j, hj, rfl⟩ | ⟨-, rfl⟩
    · exact absurd (tick_held htick) hne
    · exact absurd (by unfold delayTick; split <;> rfl) hne
    · exact absurd (by unfold soundTick; split <;> rfl) hne
    · exact ⟨j, .inl hj⟩
    · exact ⟨j, .inr hj⟩
    · exact absurd rfl hne

theorem tableWord_toNat (w : Word) : tableWord 16 w.toNat = w := by
  rw [tableWord, Nat.mod_eq_of_lt w.isLt, BitVec.ofNat_toNat, BitVec.setWidth_eq]

theorem placeAddr_toNat_lt (s : State) : s.placeAddr.toNat < 0x0FFF := by
  unfold State.placeAddr
  split
  · decide
  · omega

/-- Placing a word gives the CPU the next turn. -/
theorem placeWord_cpuTurn (s : State) (w : Word) : (placeWord s w).cpuTurn = true := by
  by_cases h : s.cpuTurn = true
  · have hsame : (placeWord s w).schedule = s.schedule := if_pos h
    rw [cpuTurn_iff] at h ⊢
    rw [← h]
    unfold State.turns
    rw [hsame]
    rfl
  · exact cpuTurn_of_cons (if_neg h)

/-- The placed word is the one at PC. -/
theorem placeWord_fetchWord {s : State} (hm : s.mem.wf = true) (w : Word) : fetchWord (placeWord s w) = w := by
  have hp := placeAddr_toNat_lt s
  have hread := fun a => read_writeBytes a (bytes := [highByte w, lowByte w]) (a := s.placeAddr.toNat) hm (by simp; omega)
  have high : (placeWord s w).mem.read s.placeAddr.toNat = highByte w :=
    (hread _).trans (by rw [if_pos (by simp), Nat.sub_self, List.getD_cons_zero])
  have low : (placeWord s w).mem.read (s.placeAddr.toNat + 1) = lowByte w :=
    (hread _).trans (by rw [if_pos (by simp), Nat.add_sub_cancel_left, List.getD_cons_succ, List.getD_cons_zero])
  exact (congrArg₂ wordOfBytes high low).trans (wordOfBytes_high_low w)

/-- Settles O60: the placed machine runs, with the CPU's turn next and the word at PC. -/
theorem placedWordRunsNext : Obligations.PlacedWordRunsNext := by
  unfold Obligations.PlacedWordRunsNext
  intro s w i hm hdecode
  rw [State.withFetchWord, tableWord_toNat]
  have hi : instrAtPC (placeWord s w) = some i := by
    rw [decode_ok, wordOfBytes_high_low] at hdecode
    rw [instrAtPC, placeWord_fetchWord hm]
    exact hdecode
  exact step_exec rfl (placeWord_cpuTurn s w) (placeAddr_toNat_lt s) hi

end Sys2Proof.Machine
end

section
/-! PROOFS. Drawing a sprite twice (spec 45_display.md R224, R226; log 13). -/

namespace Sys2Proof.Machine

/-- A sprite sets some pixel exactly when one of its bytes is not 0. -/
theorem exists_spriteSets_iff (col row : Nat) (bytes : List Byte) :
    (∃ r c, spriteSets col row bytes r c) ↔ ∃ b ∈ bytes, b ≠ 0 := by
  constructor
  · rintro ⟨r, c, k, hk, -, j, -, -, hbit⟩
    rw [List.getD_eq_getElem _ _ hk] at hbit
    refine ⟨bytes[k], List.getElem_mem hk, fun hzero => ?_⟩
    simp [hzero] at hbit
  · rintro ⟨b, hb, hne⟩
    obtain ⟨k, hk, rfl⟩ := List.getElem_of_mem hb
    obtain ⟨c, hc⟩ := spriteCovers_of_ne_zero col bytes[k] hne
    exact ⟨rowIndex (row + k), c, k, hk, rfl, by rwa [List.getD_eq_getElem _ _ hk]⟩

section
variable {col row : Nat} {bytes : List Byte} (hlen : bytes.length ≤ 15) (d : Display)
include hlen

theorem drawSprite_pixel (r : Fin 32) (c : Fin 64) :
    Display.pixel (drawSprite col row bytes d).1 r c = true ↔ ¬(Display.pixel d r c = true ↔ spriteSets col row bytes r c) := by
  obtain ⟨hflip, -⟩ := drawSprite_spec col bytes row d (by omega)
  exact hflip r c

theorem drawSprite_collides : (drawSprite col row bytes d).2 = true ↔
    ∃ r c, Display.pixel d r c = true ∧ spriteSets col row bytes r c := by
  obtain ⟨-, hcollide⟩ := drawSprite_spec col bytes row d (by omega)
  exact hcollide

/-- The second drawing flips the same pixels back. -/
theorem drawSprite_twice : (drawSprite col row bytes (drawSprite col row bytes d).1).1 = d := by
  apply display_ext
  intro r c
  rw [Bool.eq_iff_iff, drawSprite_pixel hlen, drawSprite_pixel hlen]
  tauto

/-- The second drawing finds lit the sprite's pixels that the first found unlit. -/
theorem drawSprite_twice_collides : (drawSprite col row bytes (drawSprite col row bytes d).1).2 = true ↔
    ∃ r c, spriteSets col row bytes r c ∧ Display.pixel d r c = false := by
  have hlit : ∀ r c, Display.pixel (drawSprite col row bytes d).1 r c = true ∧ spriteSets col row bytes r c ↔
      spriteSets col row bytes r c ∧ Display.pixel d r c = false := by
    intro r c
    rw [drawSprite_pixel hlen, ← Bool.not_eq_true]
    tauto
  simp only [drawSprite_collides hlen, hlit]

/-- Where no pixel of the sprite is lit, drawing it does not collide. -/
theorem drawSprite_no_collision (h : ∀ r c, spriteSets col row bytes r c → Display.pixel d r c = false) :
    (drawSprite col row bytes d).2 = false := by
  rw [← Bool.not_eq_true, drawSprite_collides hlen]
  rintro ⟨r, c, hlit, hset⟩
  exact Bool.noConfusion ((h r c hset).symm.trans hlit)

end

/-- Settles O51: each drawing flips the pixels of the sprite; the sprite sets none exactly when its bytes are all 0. -/
theorem drawingTwiceRestores : Obligations.DrawingTwiceRestores := by
  unfold Obligations.DrawingTwiceRestores
  intro col row bytes d hlen
  refine ⟨drawSprite_twice hlen d, drawSprite_twice_collides hlen d, ?clearTwice, ?clearOnce, ?blank⟩
  case clearTwice =>
    rw [drawSprite_twice_collides hlen, ← exists_spriteSets_iff col row]
    simp only [pixel_clear, and_true]
  case clearOnce => exact drawSprite_no_collision hlen _ fun r c _ => pixel_clear r c
  case blank =>
    intro hzero
    have hnone : ∀ r c, ¬ spriteSets col row bytes r c := by
      intro r c hset
      obtain ⟨b, hb, hne⟩ := (exists_spriteSets_iff col row bytes).mp ⟨r, c, hset⟩
      exact hne (hzero b hb)
    refine Prod.ext (display_ext fun r c => ?_) (drawSprite_no_collision hlen d fun r c hset => absurd hset (hnone r c))
    rw [Bool.eq_iff_iff, drawSprite_pixel hlen]
    simp [hnone r c]

end Sys2Proof.Machine
end

section
/-! PROOFS. The inputs that instructions do not read: the sound timer and the keys (spec 10_state.md R28, R34, R39). -/

namespace Sys2Proof.Machine

/-- The state with its sound timer, key latch and held keys each changed in some way. -/
def State.mapInputs (st : Byte → Byte) (latch : Option Key → Option Key) (held : Vector Bool 16 → Vector Bool 16) (s : State) :
    State :=
  { s with ST := st s.ST, latch := latch s.latch, held := held s.held }

section
variable {i : Instr} {s t : State} {st : Byte → Byte} {latch : Option Key → Option Key} {held : Vector Bool 16 → Vector Bool 16}

theorem mapInputs_of_next {u : State} (h : exec i s = .next t) (hs : exec i s = .next u)
    (hmap : exec i (s.mapInputs st latch held) = .next (u.mapInputs st latch held)) :
    exec i (s.mapInputs st latch held) = .next (t.mapInputs st latch held) := by
  obtain rfl := Host.Outcome.next.inj (hs.symm.trans h)
  exact hmap

theorem storeAtI_mapInputs {bytes : List Byte} (h : storeAtI i bytes s = .next t) :
    storeAtI i bytes (s.mapInputs st latch held) = .next (t.mapInputs st latch held) := by
  have hsame : storeCheck (s.mapInputs st latch held).cfg (s.mapInputs st latch held).I.toNat bytes.length =
      storeCheck s.cfg s.I.toNat bytes.length := rfl
  rcases storeAtI_cases i bytes s t h with ⟨hc, rfl⟩ | ⟨q, hc, rfl⟩
  · rw [storeAtI, hsame, hc]
    rfl
  · rw [storeAtI, hsame, hc]
    rfl

theorem mapInputs_I : (s.mapInputs st latch held).I = s.I := rfl

theorem advance_mapInputs (n : Nat) : (s.mapInputs st latch held).advance n = (s.advance n).mapInputs st latch held := rfl

theorem loadRegBlock_mapInputs (x : Reg) (a : Nat) :
    (s.mapInputs st latch held).loadRegBlock x a = (s.loadRegBlock x a).mapInputs st latch held := by
  simp only [State.loadRegBlock, State.mapInputs, State.getV]

/-- But for LD ST with the sound timer, LD Vx, K with the latch, and SKP and SKNP with the held keys, an instruction does the same
whatever these inputs are, and leaves them. -/
theorem exec_mapInputs (hst : ∀ x, i = .ldSTVx x → st = id) (hlatch : ∀ x, i = .ldVxK x → latch = id)
    (hheld : ∀ x, i = .skp x ∨ i = .sknp x → held = id) (h : exec i s = .next t) :
    exec i (s.mapInputs st latch held) = .next (t.mapInputs st latch held) := by
  cases i
  case ldSTVx x =>
    obtain rfl := hst x rfl
    exact mapInputs_of_next h rfl rfl
  case ldVxK x =>
    obtain rfl := hlatch x rfl
    cases hl : s.latch with
    | none => exact mapInputs_of_next h (exec_ldVxK_waits x hl) (exec_ldVxK_waits x hl)
    | some k => exact mapInputs_of_next h (exec_ldVxK_latched x hl) (exec_ldVxK_latched x hl)
  case skp x =>
    obtain rfl := hheld x (.inl rfl)
    cases hk : keyOfByte (s.getV x) with
    | none =>
      have hx := (keyOfByte_none _).mp hk
      exact mapInputs_of_next h (exec_skp_noKey hx) (exec_skp_noKey hx)
    | some k =>
      have hx := (keyOfByte_some _ k).mp hk
      exact mapInputs_of_next h (exec_skp_key hx) (exec_skp_key hx)
  case sknp x =>
    obtain rfl := hheld x (.inr rfl)
    cases hk : keyOfByte (s.getV x) with
    | none =>
      have hx := (keyOfByte_none _).mp hk
      exact mapInputs_of_next h (exec_sknp_noKey hx) (exec_sknp_noKey hx)
    | some k =>
      have hx := (keyOfByte_some _ k).mp hk
      exact mapInputs_of_next h (exec_sknp_key hx) (exec_sknp_key hx)
  case ret =>
    cases hs : s.stack with
    | nil => exact mapInputs_of_next h (exec_ret_nil hs) (exec_ret_nil hs)
    | cons a rest => exact mapInputs_of_next h (exec_ret_cons hs) (exec_ret_cons hs)
  case call nnn =>
    by_cases hd : s.cfg.stackDepth = some s.stack.length
    · exact mapInputs_of_next h (exec_call_full nnn hd) (exec_call_full nnn hd)
    · exact mapInputs_of_next h (exec_call_below nnn hd) (exec_call_below nnn hd)
  case ldFVx x =>
    rcases Nat.lt_or_ge 0xF (s.getV x).toNat with hx | hx
    · exact mapInputs_of_next h (exec_ldFVx_noDigit hx) (exec_ldFVx_noDigit hx)
    · exact mapInputs_of_next h (exec_ldFVx_digit hx) (exec_ldFVx_digit hx)
  case ldBVx x => exact storeAtI_mapInputs h
  case ldMemVx x => exact storeAtI_mapInputs h
  case ldVxMem x =>
    rcases Nat.lt_or_ge (s.I.toNat + x.val) 0x1000 with hr | hr
    · refine mapInputs_of_next h (exec_ldVxMem_in_range hr) ?_
      rw [exec_ldVxMem_in_range (s := s.mapInputs st latch held) hr, mapInputs_I, loadRegBlock_mapInputs, advance_mapInputs]
    · exact mapInputs_of_next h (exec_ldVxMem_out_of_range hr) (exec_ldVxMem_out_of_range hr)
  case drw x y n =>
    by_cases hr : 0 < n.toNat ∧ 0x1000 ≤ s.I.toNat + n.toNat - 1
    · obtain ⟨hn, hi⟩ := hr
      exact mapInputs_of_next h (exec_drw_out_of_range hn hi) (exec_drw_out_of_range hn hi)
    · have hr' : n.toNat = 0 ∨ s.I.toNat + n.toNat - 1 < 0x1000 := by omega
      exact mapInputs_of_next h (exec_drw_in_range hr') (exec_drw_in_range hr')
  all_goals exact mapInputs_of_next h rfl rfl

end

/-- Settles O53: LD ST overwrites ST, and every other instruction does the same with another value of it. -/
theorem noInstructionReadsTheSoundTimer : Obligations.NoInstructionReadsTheSoundTimer := by
  unfold Obligations.NoInstructionReadsTheSoundTimer
  intro i s t b h
  by_cases hi : ∃ x, i = .ldSTVx x
  · rw [if_pos hi]
    obtain ⟨x, rfl⟩ := hi
    obtain rfl := Host.Outcome.next.inj h
    rfl
  · rw [if_neg hi]
    exact exec_mapInputs (st := fun _ => b) (latch := id) (held := id) (fun x hx => absurd ⟨x, hx⟩ hi) (fun _ _ => rfl)
      (fun _ _ => rfl) h

/-- Settles O54: the instructions that read the keys are excluded. -/
theorem onlyKeyInstructionsReadTheKeys : Obligations.OnlyKeyInstructionsReadTheKeys := by
  unfold Obligations.OnlyKeyInstructionsReadTheKeys
  intro i s t latch held hi h
  refine exec_mapInputs (st := id) (latch := fun _ => latch) (held := fun _ => held) (fun _ _ => rfl) (fun x hx => ?_)
    (fun x hx => ?_) h
  · obtain ⟨hK, -, -⟩ := hi x
    exact absurd hx hK
  · obtain ⟨-, hskp, hsknp⟩ := hi x
    exact absurd hx (not_or.mpr ⟨hskp, hsknp⟩)

end Sys2Proof.Machine
end
